-- ==== Sys2Proof/Word.lean ====
section
/-! DEFINITION. The word types of the machine: bytes, 16-bit words and register numbers
(spec/00_scope.md R10 Table P1, R13). -/

namespace Sys2Proof

/-- An 8-bit unsigned value: a general register, a timer, a byte of memory (R10 `V_WIDTH`, `TIMER_WIDTH`). -/
abbrev Byte := BitVec 8

/-- A 16-bit unsigned value: `I`, `pc`, a stack entry, an instruction word
(R10 `I_WIDTH`, `PC_WIDTH`, `STACK_ENTRY_WIDTH`, `INSN_WIDTH`). -/
abbrev Word := BitVec 16

/-- A register number 0..15, naming `V0`..`VF` (spec/10_state.md R25). -/
abbrev Reg := Fin 16

/-- A logical key 0x0..0xF (R10 `NUM_KEYS`, spec/10_state.md R35). -/
abbrev Key := Fin 16

end Sys2Proof
end

