-- ==== Sys2Proof/Syntax.lean ====
section
/-! DEFINITION. The 34 instructions of spec/30_encoding.md R71 Table O1, one constructor per row of
spec/opcode_table.json, in the table's order. `x` and `y` are register numbers, `nn` the byte immediate, `nnn` the
12-bit address, `n` the row count of a sprite (R67, R69, R70). -/

namespace Sys2Proof

inductive Instr where
  /-- `00E0` CLS (R121) -/
  | cls
  /-- `00EE` RET (R94) -/
  | ret
  /-- `1nnn` JP addr (R95) -/
  | jp (nnn : BitVec 12)
  /-- `2nnn` CALL addr (R96) -/
  | call (nnn : BitVec 12)
  /-- `3xnn` SE Vx, byte (R97) -/
  | seByte (x : Reg) (nn : Byte)
  /-- `4xnn` SNE Vx, byte (R98) -/
  | sneByte (x : Reg) (nn : Byte)
  /-- `5xy0` SE Vx, Vy (R99) -/
  | seReg (x y : Reg)
  /-- `6xnn` LD Vx, byte (R103) -/
  | ldByte (x : Reg) (nn : Byte)
  /-- `7xnn` ADD Vx, byte (R104) -/
  | addByte (x : Reg) (nn : Byte)
  /-- `8xy0` LD Vx, Vy (R105) -/
  | ldReg (x y : Reg)
  /-- `8xy1` OR Vx, Vy (R106) -/
  | orReg (x y : Reg)
  /-- `8xy2` AND Vx, Vy (R107) -/
  | andReg (x y : Reg)
  /-- `8xy3` XOR Vx, Vy (R108) -/
  | xorReg (x y : Reg)
  /-- `8xy4` ADD Vx, Vy (R109) -/
  | addReg (x y : Reg)
  /-- `8xy5` SUB Vx, Vy (R110) -/
  | subReg (x y : Reg)
  /-- `8xy6` SHR Vx, Vy (R111) -/
  | shr (x y : Reg)
  /-- `8xy7` SUBN Vx, Vy (R112) -/
  | subn (x y : Reg)
  /-- `8xyE` SHL Vx, Vy (R113) -/
  | shl (x y : Reg)
  /-- `9xy0` SNE Vx, Vy (R100) -/
  | sneReg (x y : Reg)
  /-- `Annn` LD I, addr (R115) -/
  | ldI (nnn : BitVec 12)
  /-- `Bnnn` JP V0, addr (R101) -/
  | jpV0 (nnn : BitVec 12)
  /-- `Cxnn` RND Vx, byte (R114) -/
  | rnd (x : Reg) (nn : Byte)
  /-- `Dxyn` DRW Vx, Vy, nibble (R122) -/
  | drw (x y : Reg) (n : Nat)
  /-- `Ex9E` SKP Vx (R124) -/
  | skp (x : Reg)
  /-- `ExA1` SKNP Vx (R125) -/
  | sknp (x : Reg)
  /-- `Fx07` LD Vx, DT (R126) -/
  | ldVxDt (x : Reg)
  /-- `Fx0A` LD Vx, K (R127) -/
  | ldVxK (x : Reg)
  /-- `Fx15` LD DT, Vx (R128) -/
  | ldDtVx (x : Reg)
  /-- `Fx18` LD ST, Vx (R129) -/
  | ldStVx (x : Reg)
  /-- `Fx1E` ADD I, Vx (R116) -/
  | addI (x : Reg)
  /-- `Fx29` LD F, Vx (R117) -/
  | ldF (x : Reg)
  /-- `Fx33` LD B, Vx (R118) -/
  | ldB (x : Reg)
  /-- `Fx55` LD [I], Vx (R119) -/
  | storeRegs (x : Reg)
  /-- `Fx65` LD Vx, [I] (R120) -/
  | loadRegs (x : Reg)
  deriving DecidableEq, Repr

end Sys2Proof
end

