-- ==== Sys2Proof/Decode.lean ====
section
/-! DEFINITION. Decoding of instruction words by Table O1 (spec/30_encoding.md R66..R74), total on every word, and the
encoder that fills the fields of a row (R69, R77). A word is rejected (`none`) exactly when it matches no row: the
spec's `Illegal`, which the step turns into `DecodeError` (R68, R83). -/

namespace Sys2Proof

/-! ### Fields of a word (R67 Table F1) -/

/-- The `X` field, `w[11:8]`. -/
def fieldX (w : Word) : Reg := (w.extractLsb' 8 4).toFin

/-- The `Y` field, `w[7:4]`. -/
def fieldY (w : Word) : Reg := (w.extractLsb' 4 4).toFin

/-- The `N` field, `w[3:0]`, a row count. -/
def fieldN (w : Word) : Nat := (w.extractLsb' 0 4).toNat

/-- The `NN` field, `w[7:0]`. -/
def fieldNN (w : Word) : Byte := w.extractLsb' 0 8

/-- The `NNN` field, `w[11:0]`. -/
def fieldNNN (w : Word) : BitVec 12 := w.extractLsb' 0 12

/-! ### Table O1 -/

/-- A row of Table O1: the word `w` selects it when `w & mask = pat` (R71); `build` reads its operand fields. -/
structure OpRow where
  pat : Word
  mask : Word
  build : Word → Instr

/-- `w & mask == match` (R71). -/
def OpRow.selects (r : OpRow) (w : Word) : Bool := w &&& r.mask == r.pat

/-- Rows 1 to 9 of Table O1 (classes 0 to 7). -/
def rowsLow : List OpRow := [
  ⟨0x00E0, 0xFFFF, fun _ => .cls⟩,
  ⟨0x00EE, 0xFFFF, fun _ => .ret⟩,
  ⟨0x1000, 0xF000, fun w => .jp (fieldNNN w)⟩,
  ⟨0x2000, 0xF000, fun w => .call (fieldNNN w)⟩,
  ⟨0x3000, 0xF000, fun w => .seByte (fieldX w) (fieldNN w)⟩,
  ⟨0x4000, 0xF000, fun w => .sneByte (fieldX w) (fieldNN w)⟩,
  ⟨0x5000, 0xF00F, fun w => .seReg (fieldX w) (fieldY w)⟩,
  ⟨0x6000, 0xF000, fun w => .ldByte (fieldX w) (fieldNN w)⟩,
  ⟨0x7000, 0xF000, fun w => .addByte (fieldX w) (fieldNN w)⟩]

/-- Rows 10 to 18 of Table O1 (class 8). -/
def rowsAlu : List OpRow := [
  ⟨0x8000, 0xF00F, fun w => .ldReg (fieldX w) (fieldY w)⟩,
  ⟨0x8001, 0xF00F, fun w => .orReg (fieldX w) (fieldY w)⟩,
  ⟨0x8002, 0xF00F, fun w => .andReg (fieldX w) (fieldY w)⟩,
  ⟨0x8003, 0xF00F, fun w => .xorReg (fieldX w) (fieldY w)⟩,
  ⟨0x8004, 0xF00F, fun w => .addReg (fieldX w) (fieldY w)⟩,
  ⟨0x8005, 0xF00F, fun w => .subReg (fieldX w) (fieldY w)⟩,
  ⟨0x8006, 0xF00F, fun w => .shr (fieldX w) (fieldY w)⟩,
  ⟨0x8007, 0xF00F, fun w => .subn (fieldX w) (fieldY w)⟩,
  ⟨0x800E, 0xF00F, fun w => .shl (fieldX w) (fieldY w)⟩]

/-- Rows 19 to 23 of Table O1 (classes 9 to D). -/
def rowsHigh : List OpRow := [
  ⟨0x9000, 0xF00F, fun w => .sneReg (fieldX w) (fieldY w)⟩,
  ⟨0xA000, 0xF000, fun w => .ldI (fieldNNN w)⟩,
  ⟨0xB000, 0xF000, fun w => .jpV0 (fieldNNN w)⟩,
  ⟨0xC000, 0xF000, fun w => .rnd (fieldX w) (fieldNN w)⟩,
  ⟨0xD000, 0xF000, fun w => .drw (fieldX w) (fieldY w) (fieldN w)⟩]

/-- Rows 24 to 34 of Table O1 (classes E and F). -/
def rowsMisc : List OpRow := [
  ⟨0xE09E, 0xF0FF, fun w => .skp (fieldX w)⟩,
  ⟨0xE0A1, 0xF0FF, fun w => .sknp (fieldX w)⟩,
  ⟨0xF007, 0xF0FF, fun w => .ldVxDt (fieldX w)⟩,
  ⟨0xF00A, 0xF0FF, fun w => .ldVxK (fieldX w)⟩,
  ⟨0xF015, 0xF0FF, fun w => .ldDtVx (fieldX w)⟩,
  ⟨0xF018, 0xF0FF, fun w => .ldStVx (fieldX w)⟩,
  ⟨0xF01E, 0xF0FF, fun w => .addI (fieldX w)⟩,
  ⟨0xF029, 0xF0FF, fun w => .ldF (fieldX w)⟩,
  ⟨0xF033, 0xF0FF, fun w => .ldB (fieldX w)⟩,
  ⟨0xF055, 0xF0FF, fun w => .storeRegs (fieldX w)⟩,
  ⟨0xF065, 0xF0FF, fun w => .loadRegs (fieldX w)⟩]

/-- Table O1, all 34 rows (R71). -/
def opTable : List OpRow := rowsLow ++ rowsAlu ++ rowsHigh ++ rowsMisc

/-- `decode(w)`: the instruction of the row that `w` selects, or `none` for an illegal word (R68, R71, R74). -/
def decode (w : Word) : Option Instr := (opTable.find? (·.selects w)).map (·.build w)

/-- The big-endian word of two bytes: `high * 256 + low` (spec/20_memory.md R56). -/
def wordOfBytes (high low : Byte) : Word := high ++ low

/-- The high byte of a word, the first in memory (R56). -/
def highByte (w : Word) : Byte := w.extractLsb' 8 8

/-- The low byte of a word, the second in memory (R56). -/
def lowByte (w : Word) : Byte := w.extractLsb' 0 8

/-- Decode the instruction at the head of a list of bytes, and give the rest; `none` where there are not two bytes
or the word is illegal (R56, R66, R74). -/
def decodeBytes : List Byte → Option (Instr × List Byte)
  | high :: low :: rest => (decode (wordOfBytes high low)).map (·, rest)
  | _ => none

/-- The instruction of a table word, given to the decoder as the two bytes the hardware stores: high byte first
(R56). Every instruction is one 16-bit word (R66), so bits above bit 15 belong to no instruction. -/
def decodeTableWord (nbits w : Nat) : Option Instr :=
  let word : Word := BitVec.ofNat 16 (w % 2 ^ nbits)
  (decodeBytes [highByte word, lowByte word]).map (·.1)

/-! ### The encoder (R69 Table F2: the six operand shapes) -/

/-- A register number as the 4 bits of its field. -/
def regBits (r : Reg) : BitVec 4 := BitVec.ofFin r

/-- Shape `addr`: `CCCC nnnn nnnn nnnn`. -/
def encodeAddr (c : BitVec 4) (nnn : BitVec 12) : Word := c ++ nnn

/-- Shape `reg_byte`, and shape `reg` with `nn` the fixed low byte: `CCCC xxxx nnnn nnnn`. -/
def encodeRegByte (c : BitVec 4) (x : Reg) (nn : Byte) : Word := c ++ regBits x ++ nn

/-- Shape `reg_reg_nib`, and shape `reg_reg` with `n` the fixed low nibble: `CCCC xxxx yyyy nnnn`. -/
def encodeRegReg (c : BitVec 4) (x y : Reg) (n : BitVec 4) : Word := c ++ regBits x ++ regBits y ++ n

/-- The word of an instruction: its row's fixed bits with the operand fields filled in (R69, R71, R77). -/
def encode : Instr → Word
  | .cls => 0x00E0
  | .ret => 0x00EE
  | .jp nnn => encodeAddr 0x1 nnn
  | .call nnn => encodeAddr 0x2 nnn
  | .seByte x nn => encodeRegByte 0x3 x nn
  | .sneByte x nn => encodeRegByte 0x4 x nn
  | .seReg x y => encodeRegReg 0x5 x y 0x0
  | .ldByte x nn => encodeRegByte 0x6 x nn
  | .addByte x nn => encodeRegByte 0x7 x nn
  | .ldReg x y => encodeRegReg 0x8 x y 0x0
  | .orReg x y => encodeRegReg 0x8 x y 0x1
  | .andReg x y => encodeRegReg 0x8 x y 0x2
  | .xorReg x y => encodeRegReg 0x8 x y 0x3
  | .addReg x y => encodeRegReg 0x8 x y 0x4
  | .subReg x y => encodeRegReg 0x8 x y 0x5
  | .shr x y => encodeRegReg 0x8 x y 0x6
  | .subn x y => encodeRegReg 0x8 x y 0x7
  | .shl x y => encodeRegReg 0x8 x y 0xE
  | .sneReg x y => encodeRegReg 0x9 x y 0x0
  | .ldI nnn => encodeAddr 0xA nnn
  | .jpV0 nnn => encodeAddr 0xB nnn
  | .rnd x nn => encodeRegByte 0xC x nn
  | .drw x y n => encodeRegReg 0xD x y (BitVec.ofNat 4 n)
  | .skp x => encodeRegByte 0xE x 0x9E
  | .sknp x => encodeRegByte 0xE x 0xA1
  | .ldVxDt x => encodeRegByte 0xF x 0x07
  | .ldVxK x => encodeRegByte 0xF x 0x0A
  | .ldDtVx x => encodeRegByte 0xF x 0x15
  | .ldStVx x => encodeRegByte 0xF x 0x18
  | .addI x => encodeRegByte 0xF x 0x1E
  | .ldF x => encodeRegByte 0xF x 0x29
  | .ldB x => encodeRegByte 0xF x 0x33
  | .storeRegs x => encodeRegByte 0xF x 0x55
  | .loadRegs x => encodeRegByte 0xF x 0x65

end Sys2Proof
end

