-- ==== Sys2Proof/Machine/Flags.lean ====
section
/-! DEFINITION. The functions of `alu_8bit` and every flag they compute (spec/42_alu.md R102 Table A1), the I-overflow
flag of `Fx1E` (spec/43_index_memory.md R116) and the byte a flag is written as (spec/10_state.md R26). -/

namespace Sys2Proof.Machine

/-- A flag as the byte that `VF` receives: 1 or 0 (R26). -/
def flagByte (b : Bool) : Byte := if b then 1 else 0

/-- `ADD(a, b)`: `(a + b) mod 256`. -/
def aluAdd (a b : Byte) : Byte := a + b

/-- The carry of `ADD`: 1 if `a + b > 255`. -/
def aluCarry (a b : Byte) : Bool := decide (a.toNat + b.toNat > 255)

/-- `SUB(a, b)`: `(a - b) mod 256`. -/
def aluSub (a b : Byte) : Byte := a - b

/-- The not-borrow of `SUB`: 1 if `a >= b`. -/
def aluNotBorrow (a b : Byte) : Bool := decide (a.toNat ≥ b.toNat)

/-- `OR(a, b)`. -/
def aluOr (a b : Byte) : Byte := a ||| b

/-- `AND(a, b)`. -/
def aluAnd (a b : Byte) : Byte := a &&& b

/-- `XOR(a, b)`. -/
def aluXor (a b : Byte) : Byte := a ^^^ b

/-- `SHR(a)`: `a >> 1`. -/
def aluShr (a : Byte) : Byte := a >>> 1

/-- The bit `SHR` shifts out: `a & 1`. -/
def aluShrOut (a : Byte) : Bool := a.getLsbD 0

/-- `SHL(a)`: `(a << 1) mod 256`. -/
def aluShl (a : Byte) : Byte := a <<< 1

/-- The bit `SHL` shifts out: `(a >> 7) & 1`. -/
def aluShlOut (a : Byte) : Bool := a.getLsbD 7

/-- `EQ(a, b)`, used by the skips. -/
def aluEq (a b : Byte) : Bool := a == b

/-- The I-overflow flag of `Fx1E`: 1 if `I + Vx > 0xFFF`, the sum unbounded (R116, D19). -/
def indexOverflow (i : Word) (b : Byte) : Bool := decide (i.toNat + b.toNat > 0xFFF)

end Sys2Proof.Machine
end

