-- ==== Sys2Proof/Config.lean ====
section
/-! DEFINITION. What an implementation fixes (spec/00_scope.md R11 Table P2, R12 Table Q1) and the free values the
spec leaves to the environment (R90, R6). -/

namespace Sys2Proof

/-- `KEY_INDEX_POLICY`: what `Ex9E`/`ExA1` do with `Vx > 15` (R11; spec/60_exceptions.md R134, D17). -/
inductive KeyIndexPolicy where
  /-- raise `KeyIndexOutOfRange` (the default) -/
  | fault
  /-- read `key[Vx mod 16]` -/
  | maskLowNibble
  deriving DecidableEq, Repr

/-- The four quirk switches (R12 Table Q1). -/
structure Quirks where
  /-- `QUIRK_SHIFT_VY`: `8xy6`/`8xyE` shift `Vy` into `Vx` (R111, R113) -/
  shiftVy : Bool
  /-- `QUIRK_LDST_ADVANCE_I`: `Fx55`/`Fx65` leave `I` advanced by `x+1` (R119, R120) -/
  ldstAdvanceI : Bool
  /-- `QUIRK_LOGIC_VF_RESET`: `8xy1`/`8xy2`/`8xy3` write `VF <- 0` last (R106..R108) -/
  logicVfReset : Bool
  /-- `QUIRK_FX1E_VF`: `Fx1E` writes `VF` with the I-overflow flag (R116) -/
  fx1eVf : Bool
  deriving DecidableEq, Repr

/-- The parameters of the machine, fixed for a run (R11, R12, R153).
`fontBase : Fin 433` is the condition `FONT_BASE + 80 <= 0x200` of R11. -/
structure Config where
  quirks : Quirks
  /-- `FONT_BASE` -/
  fontBase : Fin 433
  /-- `FONT_GLYPHS`: 16 glyphs of 5 bytes -/
  fontGlyphs : Vector Byte 80
  keyIndexPolicy : KeyIndexPolicy
  deriving DecidableEq, Repr

/-- The default of `FONT_GLYPHS` (spec/70_reset_and_hazards.md R155 Table FG1).
PRESUMED: the spec marks the table "from general knowledge, not in source" (log 8). -/
def Config.defaultGlyphs : Vector Byte 80 := #v[
  0xF0, 0x90, 0x90, 0x90, 0xF0,  0x20, 0x60, 0x20, 0x20, 0x70,
  0xF0, 0x10, 0xF0, 0x80, 0xF0,  0xF0, 0x10, 0xF0, 0x10, 0xF0,
  0x90, 0x90, 0xF0, 0x10, 0x10,  0xF0, 0x80, 0xF0, 0x10, 0xF0,
  0xF0, 0x80, 0xF0, 0x90, 0xF0,  0xF0, 0x10, 0x20, 0x40, 0x40,
  0xF0, 0x90, 0xF0, 0x90, 0xF0,  0xF0, 0x90, 0xF0, 0x10, 0xF0,
  0xF0, 0x90, 0xF0, 0x90, 0x90,  0xE0, 0x90, 0xE0, 0x90, 0xE0,
  0xF0, 0x80, 0x80, 0x80, 0xF0,  0xE0, 0x90, 0x90, 0x90, 0xE0,
  0xF0, 0x80, 0xF0, 0x80, 0xF0,  0xF0, 0x80, 0xF0, 0x80, 0x80]

/-- The spec's defaults: every quirk off, `FONT_BASE = 0x050`, `KEY_INDEX_POLICY = fault` (R11, R12). -/
def Config.default : Config where
  quirks := { shiftVy := false, ldstAdvanceI := false, logicVfReset := false, fx1eVf := false }
  fontBase := 0x050
  fontGlyphs := Config.defaultGlyphs
  keyIndexPolicy := .fault

/-- The random byte the environment supplies, for each draw one (spec/40_engine_cycle.md R90, D22: "a free input
chosen by the environment, with no law on its values"). A free value: no body, so nothing can be proved of it (log 2). -/
opaque Config.randomByte : Nat → Byte

/-- The kinds of transaction of R7 Table T1. -/
inductive TransactionKind where
  | step | tick | setKey | load | reset
  deriving DecidableEq, Repr

/-- `CYCLES_PER_TRANSACTION` (R6, R11 Table P2): OPEN, and no rule depends on it (log 14). -/
opaque Config.cyclesPerTransaction : TransactionKind → Nat

end Sys2Proof
end

