-- ==== Sys2Proof/Machine/Memory.lean ====
section
/-! DEFINITION. The memory array of spec/20_memory.md R53: addresses 0x000..0xFFF, one byte each, held as a list of
(address, byte) pairs in one canonical form: addresses strictly rising, and no pair equal to what an unlisted address
reads as, which is what the memory holds after construction (spec/10_state.md R42 Table I1). -/

namespace Sys2Proof.Machine

/-- `mem`, as the list of the bytes that differ from their value after construction. -/
abbrev Memory := List Host.Cell

/-- What an unlisted address reads as: the font byte inside `FONT_BASE .. FONT_BASE + 79`, 0 elsewhere
(R42 Table I1; spec/70_reset_and_hazards.md R154, R156; D6). -/
def Memory.background (cfg : Config) (a : Nat) : Byte :=
  if h : cfg.fontBase.val ≤ a ∧ a < cfg.fontBase.val + 80 then
    cfg.fontGlyphs[a - cfg.fontBase.val]'(by omega)
  else 0

/-- `mem[a]` (R53, R62). -/
def Memory.read (cfg : Config) : Memory → Nat → Byte
  | [], a => Memory.background cfg a
  | (b, v) :: m, a => if a = b then v else Memory.read cfg m a

/-- List a byte at its place in the rising order, in place of an earlier one. -/
def Memory.insert (a : Nat) (v : Byte) : Memory → Memory
  | [] => [(a, v)]
  | (b, u) :: m =>
    if a < b then (a, v) :: (b, u) :: m
    else if a = b then (a, v) :: m
    else (b, u) :: Memory.insert a v m

/-- Unlist an address. -/
def Memory.erase (a : Nat) (m : Memory) : Memory := m.filter (fun c => c.1 ≠ a)

/-- `mem[a] <- v` (R53), keeping the canonical form. -/
def Memory.write (cfg : Config) (m : Memory) (a : Nat) (v : Byte) : Memory :=
  if v = Memory.background cfg a then Memory.erase a m else Memory.insert a v m

/-- `for a = 0 to 0x1FF: mem[a] <- 0; mem[FONT_BASE + j] <- FONT_GLYPHS[j]`: every address below 0x200 goes back to its
value after construction (spec/70_reset_and_hazards.md R157). -/
def Memory.restoreReserved (m : Memory) : Memory := m.filter (fun c => 0x200 ≤ c.1)

/-- The canonical form: addresses inside 0x000..0xFFF (R53), strictly rising, no byte equal to what its address reads
as unlisted. -/
abbrev Memory.wf (cfg : Config) (m : Memory) : Prop :=
  m.Pairwise (fun c d => c.1 < d.1) ∧ ∀ c ∈ m, c.1 < 0x1000 ∧ c.2 ≠ Memory.background cfg c.1

end Sys2Proof.Machine
end

