-- ==== Sys2Proof/Machine/State.lean ====
section
/-! DEFINITION. The state of the machine: every field of spec/10_state.md and spec/20_memory.md, plus the model's own
fields (the parameters of a run and the random input), and its value after construction (R42 Table I1, R154). -/

namespace Sys2Proof.Machine

/-- The five faults a step can raise (spec/60_exceptions.md R130 Table G1). -/
inductive EngineFault where
  /-- code 1: the word matches no row of Table O1 (R131) -/
  | decodeError
  /-- code 2: `2nnn` with `sp = 16` (R132) -/
  | stackOverflow
  /-- code 3: `00EE` with `sp = 0` (R132) -/
  | stackUnderflow
  /-- code 4: an access above 0xFFF (R133) -/
  | memoryOutOfRange
  /-- code 5: `Ex9E`/`ExA1` with `Vx > 15` under the policy `fault` (R134) -/
  | keyIndexOutOfRange
  deriving DecidableEq, Repr

/-- The fault latch (spec/10_state.md R37 Table C1, R38). `code = none` is the code 0 `None`. -/
structure FaultLatch where
  code : Option EngineFault
  addr : Word
  word : Word
  wordValid : Bool
  deriving DecidableEq, Repr

/-- The latch with every field 0: not halted (R42 Table I1). -/
def FaultLatch.clear : FaultLatch := { code := none, addr := 0, word := 0, wordValid := false }

/-- The wait state `ws` (R36). `target` exists only while waiting, so it "reads 0 when `waiting = 0`" is by form. -/
inductive WaitState where
  | running
  | awaitingKey (t : Reg)
  deriving DecidableEq, Repr

/-- The 64 x 32 grid of 1-bit cells (R34): `fb[y][x]` is cell `x` of row `y`. -/
abbrev Framebuffer := Vector (Vector Bool 64) 32

/-- The framebuffer with all 2048 cells 0 (R34, R121). -/
def Framebuffer.clear : Framebuffer := Vector.replicate 32 (Vector.replicate 64 false)

/-- The whole state of the machine. -/
structure State where
  /-- the parameters of R11 and R12, fixed for a run: no transaction changes them (the model's own field, log 1) -/
  cfg : Config
  /-- `V0`..`VF` (R25, R26) -/
  v : Vector Byte 16
  /-- `I` (R28) -/
  i : Word
  /-- the program counter (R29, R30) -/
  pc : Word
  /-- the number of stack entries in use, 0..16 (R31, R37) -/
  sp : Fin 17
  /-- `stack[0]`..`stack[15]` (R31) -/
  stack : Vector Word 16
  /-- `DT`, the delay timer (R33) -/
  dt : Byte
  /-- `ST`, the sound timer (R33) -/
  st : Byte
  /-- the framebuffer (R34) -/
  fb : Framebuffer
  /-- `key[0]`..`key[15]`, true when pressed (R35) -/
  key : Vector Bool 16
  /-- the wait state (R36) -/
  ws : WaitState
  /-- the fault latch (R38) -/
  fault : FaultLatch
  /-- `mem[0x000..0xFFF]` (R53) -/
  mem : Memory
  /-- the 8-bit `rand` input of the next step (R7 Table T1, R90; the model's own field, log 2) -/
  rand : Byte
  /-- how many free random bytes have been drawn (the model's own field, log 2) -/
  randCount : Nat
  deriving DecidableEq, Repr

/-- Reasons for the host's outcome `fault`. There is none: every fault of the spec is a next state whose latch is
written (R136), so no step of this model ends that way (log 3). Safe: nothing is hidden in it. -/
inductive Fault where
  deriving DecidableEq, Repr

/-- Reasons for the host's outcome `refused`. -/
inductive Refusal where
  /-- Raised by `exec` for an instruction that has no meaning yet, under its mnemonic. No arm of this model raises it.
  Safe: the machine stops where the hardware goes on. -/
  | notModelled (mnemonic : String)
  deriving DecidableEq, Repr

/-- The machine after construction with the parameters `cfg` (R42 Table I1, R154). Memory lists nothing: each address
holds its value after construction. The random input is a free value (log 2). -/
def State.construct (cfg : Config) : State where
  cfg := cfg
  v := Vector.replicate 16 0
  i := 0
  pc := 0x200
  sp := 0
  stack := Vector.replicate 16 0
  dt := 0
  st := 0
  fb := Framebuffer.clear
  key := Vector.replicate 16 false
  ws := .running
  fault := FaultLatch.clear
  mem := []
  rand := Config.randomByte 0
  randCount := 1

/-- The machine right after reset: construction with the spec's default parameters (R42, R154; R11, R12). The `reset`
transaction on a machine that has run is `Sys2Proof.Machine.resetMachine` (R157). -/
def State.reset : State := State.construct Config.default

end Sys2Proof.Machine
end

