-- ==== Sys2Proof/Machine/Operands.lean ====
section
/-! DEFINITION. The operand forms of the instructions: registers, `VF`, the address immediate, the shifted operand, the
key operand, the sprite position and the register range of `Fx55`/`Fx65`
(spec/00_scope.md R14; spec/30_encoding.md R69, R70). Every register read and write goes through `getV` and `setV`. -/

namespace Sys2Proof.Machine

/-- `x[r]` (R14, R25). -/
def State.getV (s : State) (r : Reg) : Byte := s.v[r.val]'r.isLt

/-- `x[r] <- b` (R14, R25). -/
def State.setV (s : State) (r : Reg) (b : Byte) : State := { s with v := s.v.set r.val b r.isLt }

/-- `VF` is `x[15]` (R14, R26). -/
def regVF : Reg := 15

/-- `VF <- flag` (R26). -/
def State.setVF (s : State) (flag : Bool) : State := s.setV regVF (flagByte flag)

/-- `zext_16(NNN)` (R70). -/
def zextAddr (nnn : BitVec 12) : Word := nnn.setWidth 16

/-- A register value widened to 16 bits (R13: `zext_N` is the only widening). -/
def zextByte (b : Byte) : Word := b.setWidth 16

/-- The value that `8xy6`/`8xyE` shift: `x[Y] if QUIRK_SHIFT_VY else x[X]` (spec/42_alu.md R111, R113). -/
def State.shiftOperand (s : State) (x y : Reg) : Byte := if s.cfg.quirks.shiftVy then s.getV y else s.getV x

/-- The key that `Ex9E`/`ExA1` name: `x[X]` when it is 0..15; above 15 none under the policy `fault`, `x[X] mod 16`
under `mask_low_nibble` (spec/45_keypad_timer.md R124, R125; D17). -/
def State.keyOperand (s : State) (x : Reg) : Option Key :=
  let k := (s.getV x).toNat
  if k > 15 ∧ s.cfg.keyIndexPolicy = .fault then none else some (Fin.ofNat 16 k)

/-- `key[k]` (R14, R35). -/
def State.keyDown (s : State) (k : Key) : Bool := s.key[k.val]'k.isLt

/-- The registers `V0`..`VX`, in order (spec/43_index_memory.md R119, R120). -/
def regsUpTo (x : Reg) : List Reg := (List.finRange 16).filter (fun k => k ≤ x)

/-- The bytes of `V0`..`VX`, `V0` first (R119). -/
def State.bytesUpTo (s : State) (x : Reg) : List Byte := (regsUpTo x).map s.getV

/-- Write registers one after another. -/
def State.setRegs (s : State) : List (Reg × Byte) → State
  | [] => s
  | (r, b) :: rest => (s.setV r b).setRegs rest

/-- `x[X] mod 64`, the column of a sprite (spec/44_display.md R122). -/
def State.spriteCol (s : State) (x : Reg) : Nat := (s.getV x).toNat % 64

/-- `x[Y] mod 32`, the row of a sprite (R122). -/
def State.spriteRow (s : State) (y : Reg) : Nat := (s.getV y).toNat % 32

end Sys2Proof.Machine
end

