-- ==== Sys2Proof/Machine/Ops.lean ====
section
/-! DEFINITION. The operations the meanings share: byte accesses to memory, the choice of the next pc, the call stack,
the fetch of an instruction word, the run status, and taking a fault. -/

namespace Sys2Proof.Machine

/-! ### Run status (spec/10_state.md R36, R39) -/

/-- The machine is halted exactly when `fault.code != 0` (R39). -/
def State.halted (s : State) : Bool := s.fault.code.isSome

/-- `ws.waiting` (R36). -/
def State.waiting (s : State) : Bool :=
  match s.ws with
  | .running => false
  | .awaitingKey _ => true

/-! ### Memory accesses (spec/20_memory.md R57, R58) -/

/-- `mem[a]` for an address in range. The bounds check of R58 stands in the meanings, before any access (log 20). -/
def State.byteAt (s : State) (a : Nat) : Byte := Memory.read s.cfg s.mem a

/-- `mem[a] <- b` for an address in range. -/
def State.storeByte (s : State) (a : Nat) (b : Byte) : State := { s with mem := Memory.write s.cfg s.mem a b }

/-- Store bytes at `a`, `a + 1`, ... in order. -/
def State.storeBytes (s : State) (a : Nat) : List Byte → State
  | [] => s
  | b :: rest => (s.storeByte a b).storeBytes (a + 1) rest

/-- The `n` bytes at `a` .. `a + n - 1`. -/
def State.loadBytes (s : State) (a n : Nat) : List Byte := (List.range n).map (fun k => s.byteAt (a + k))

/-! ### The next pc (spec/40_engine_cycle.md R87 Table PC1, R88) -/

/-- The normal advance, `pc <- pc + 2` modulo 0x10000. -/
def State.advance (s : State) : State := { s with pc := s.pc + 2 }

/-- A skip: `pc + 4` if it is taken, else `pc + 2`. -/
def State.skipIf (s : State) (taken : Bool) : State := { s with pc := if taken then s.pc + 4 else s.pc + 2 }

/-- `pc <- target`. -/
def State.jump (s : State) (target : Word) : State := { s with pc := target }

/-! ### The call stack (spec/10_state.md R31, R32) -/

/-- Push: `stack[sp] <- w; sp <- sp + 1`, or `none` when all 16 entries are in use (spec/41_flow.md R96). -/
def State.push (s : State) (w : Word) : Option State :=
  if h : s.sp.val < 16 then
    some { s with stack := s.stack.set s.sp.val w h, sp := ⟨s.sp.val + 1, by omega⟩ }
  else none

/-- Pop: `sp <- sp - 1` and the entry `stack[sp - 1]`, or `none` when the stack is empty (R94). -/
def State.pop (s : State) : Option (Word × State) :=
  if h : 0 < s.sp.val then
    some (s.stack[s.sp.val - 1]'(by omega), { s with sp := ⟨s.sp.val - 1, by omega⟩ })
  else none

/-! ### Taking a fault (spec/60_exceptions.md R136, R137) -/

/-- Fault entry: the latch receives the fault, the address `pc` of the instruction, and the fetched word if there is
one; nothing else changes (R136). There is no return from a fault: only the `reset` transaction clears the latch
(R140, `resetMachine`). -/
def State.takeFault (s : State) (f : EngineFault) (w : Option Word) : State :=
  { s with fault := { code := some f, addr := s.pc, word := w.getD 0, wordValid := w.isSome } }

/-- `raise f` in the execution of the instruction `i`: the fetched word is the word of `i` (R85, R136; log 5). -/
def raise (f : EngineFault) (i : Instr) (s : State) : Host.Outcome State Fault Refusal :=
  .next (s.takeFault f (some (encode i)))

/-! ### Fetch (R82) -/

/-- The word at `pc`, big-endian, or `none` when `pc + 1 > 0xFFF` (R82; R56). -/
def State.fetchWord (s : State) : Option Word :=
  if s.pc.toNat + 1 > 0xFFF then none
  else some (wordOfBytes (s.byteAt s.pc.toNat) (s.byteAt (s.pc.toNat + 1)))

/-! ### The random input (R90) -/

/-- The environment's next random byte takes the place of the one just read (log 2). -/
def State.drawRandom (s : State) : State :=
  { s with rand := Config.randomByte s.randCount, randCount := s.randCount + 1 }

end Sys2Proof.Machine
end

