-- ==== Sys2Proof/Machine/Alu.lean ====
section
/-! DEFINITION. The meanings of spec/42_alu.md: register loads, arithmetic, logic, shifts and the random byte
(R103..R114). Every operand is read before any write, and `VF` is written last (spec/00_scope.md R15). -/

namespace Sys2Proof.Machine

/-- Write a result, then a flag to `VF`, then advance (R15 point 3, R26). -/
def State.writeFlagged (s : State) (x : Reg) (result : Byte) (flag : Bool) : State :=
  ((s.setV x result).setVF flag).advance

/-- Write a logic result; `VF <- 0` last when `QUIRK_LOGIC_VF_RESET` (R106, R107, R108). -/
def State.writeLogic (s : State) (x : Reg) (result : Byte) : State :=
  if s.cfg.quirks.logicVfReset then s.writeFlagged x result false else (s.setV x result).advance

/-- `LD Vx, byte` (R103). -/
def execLdByte (x : Reg) (nn : Byte) (s : State) : Host.Outcome State Fault Refusal :=
  .next (s.setV x nn).advance

/-- `ADD Vx, byte` (R104): no flag is written. -/
def execAddByte (x : Reg) (nn : Byte) (s : State) : Host.Outcome State Fault Refusal :=
  .next (s.setV x (aluAdd (s.getV x) nn)).advance

/-- `LD Vx, Vy` (R105). -/
def execLdReg (x y : Reg) (s : State) : Host.Outcome State Fault Refusal :=
  .next (s.setV x (s.getV y)).advance

/-- `OR Vx, Vy` (R106). -/
def execOrReg (x y : Reg) (s : State) : Host.Outcome State Fault Refusal :=
  .next (s.writeLogic x (aluOr (s.getV x) (s.getV y)))

/-- `AND Vx, Vy` (R107). -/
def execAndReg (x y : Reg) (s : State) : Host.Outcome State Fault Refusal :=
  .next (s.writeLogic x (aluAnd (s.getV x) (s.getV y)))

/-- `XOR Vx, Vy` (R108). -/
def execXorReg (x y : Reg) (s : State) : Host.Outcome State Fault Refusal :=
  .next (s.writeLogic x (aluXor (s.getV x) (s.getV y)))

/-- `ADD Vx, Vy` (R109). -/
def execAddReg (x y : Reg) (s : State) : Host.Outcome State Fault Refusal :=
  .next (s.writeFlagged x (aluAdd (s.getV x) (s.getV y)) (aluCarry (s.getV x) (s.getV y)))

/-- `SUB Vx, Vy` (R110). -/
def execSubReg (x y : Reg) (s : State) : Host.Outcome State Fault Refusal :=
  .next (s.writeFlagged x (aluSub (s.getV x) (s.getV y)) (aluNotBorrow (s.getV x) (s.getV y)))

/-- `SHR Vx, Vy` (R111). -/
def execShr (x y : Reg) (s : State) : Host.Outcome State Fault Refusal :=
  .next (s.writeFlagged x (aluShr (s.shiftOperand x y)) (aluShrOut (s.shiftOperand x y)))

/-- `SUBN Vx, Vy` (R112): `Vy - Vx`. -/
def execSubn (x y : Reg) (s : State) : Host.Outcome State Fault Refusal :=
  .next (s.writeFlagged x (aluSub (s.getV y) (s.getV x)) (aluNotBorrow (s.getV y) (s.getV x)))

/-- `SHL Vx, Vy` (R113). -/
def execShl (x y : Reg) (s : State) : Host.Outcome State Fault Refusal :=
  .next (s.writeFlagged x (aluShl (s.shiftOperand x y)) (aluShlOut (s.shiftOperand x y)))

/-- `RND Vx, byte` (R114): `rand & NN`. The byte read is used up, and the next step has a new one (R90, log 2). -/
def execRnd (x : Reg) (nn : Byte) (s : State) : Host.Outcome State Fault Refusal :=
  .next (s.setV x (aluAnd s.rand nn)).drawRandom.advance

end Sys2Proof.Machine
end

