-- ==== Sys2Proof/Machine/Display.lean ====
section
/-! DEFINITION. The meanings of spec/44_display.md: `CLS` and `DRW`, and how a sprite byte maps onto cells
(R121..R123). -/

namespace Sys2Proof.Machine

/-- `fb[y][x]` (R34). -/
def Framebuffer.cell (fb : Framebuffer) (px : Fin 64) (py : Fin 32) : Bool := (fb[py.val]'py.isLt)[px.val]'px.isLt

/-- `fb[y][x] <- fb[y][x] ^ 1` (R122). -/
def Framebuffer.flip (fb : Framebuffer) (px : Fin 64) (py : Fin 32) : Framebuffer :=
  fb.set py.val ((fb[py.val]'py.isLt).set px.val (!Framebuffer.cell fb px py) px.isLt) py.isLt

/-- A draw in progress: the framebuffer and the collision flag `c` (R122). -/
abbrev Drawing := Framebuffer × Bool

/-- XOR one cell, setting `c` if the cell was on (R122). -/
def Drawing.flip (d : Drawing) (px : Fin 64) (py : Fin 32) : Drawing :=
  (Framebuffer.flip d.1 px py, d.2 || Framebuffer.cell d.1 px py)

/-- Column `b` of a sprite row: bit `7 - b` of the byte is column `x0 + b`, modulo 64 (R122, R123). -/
def Drawing.drawBit (x0 : Nat) (py : Fin 32) (row : Byte) (d : Drawing) (b : Nat) : Drawing :=
  if row.getLsbD (7 - b) then d.flip (Fin.ofNat 64 (x0 + b)) py else d

/-- One row of a sprite: its 8 columns, leftmost first (R122). -/
def Drawing.drawRow (x0 : Nat) (py : Fin 32) (d : Drawing) (row : Byte) : Drawing :=
  (List.range 8).foldl (Drawing.drawBit x0 py row) d

/-- The rows of a sprite from row `y0` down, modulo 32 (R122, R123). -/
def Drawing.drawRows (x0 : Nat) : Nat → List Byte → Drawing → Drawing
  | _, [], d => d
  | y0, row :: rest, d => Drawing.drawRows x0 (y0 + 1) rest (d.drawRow x0 (Fin.ofNat 32 y0) row)

/-- `CLS` (R121). -/
def execCls (s : State) : Host.Outcome State Fault Refusal :=
  .next { s with fb := Framebuffer.clear }.advance

/-- `DRW Vx, Vy, nibble` (R122): the position and the sprite are read first, `VF` is the collision flag, written
last. -/
def execDrw (x y : Reg) (n : Nat) (s : State) : Host.Outcome State Fault Refusal :=
  if 0 < n ∧ s.i.toNat + n - 1 > 0xFFF then raise .memoryOutOfRange (.drw x y n) s
  else
    let d := Drawing.drawRows (s.spriteCol x) (s.spriteRow y) (s.loadBytes s.i.toNat n) (s.fb, false)
    .next ({ s with fb := d.1 }.setVF d.2).advance

end Sys2Proof.Machine
end

