-- ==== Sys2Proof/Machine/Flow.lean ====
section
/-! DEFINITION. The meanings of spec/41_flow.md: return, jumps, call and skips (R94..R101). In each, `s.pc` is the
instruction's own address (R84). -/

namespace Sys2Proof.Machine

/-- `RET` (R94). -/
def execRet (s : State) : Host.Outcome State Fault Refusal :=
  match s.pop with
  | none => raise .stackUnderflow .ret s
  | some (w, s') => .next (s'.jump w)

/-- `JP addr` (R95). -/
def execJp (nnn : BitVec 12) (s : State) : Host.Outcome State Fault Refusal :=
  .next (s.jump (zextAddr nnn))

/-- `CALL addr` (R96): the pushed value is `(pc + 2) mod 0x10000`. -/
def execCall (nnn : BitVec 12) (s : State) : Host.Outcome State Fault Refusal :=
  match s.push (s.pc + 2) with
  | none => raise .stackOverflow (.call nnn) s
  | some s' => .next (s'.jump (zextAddr nnn))

/-- `SE Vx, byte` (R97). -/
def execSeByte (x : Reg) (nn : Byte) (s : State) : Host.Outcome State Fault Refusal :=
  .next (s.skipIf (aluEq (s.getV x) nn))

/-- `SNE Vx, byte` (R98). -/
def execSneByte (x : Reg) (nn : Byte) (s : State) : Host.Outcome State Fault Refusal :=
  .next (s.skipIf (!aluEq (s.getV x) nn))

/-- `SE Vx, Vy` (R99). -/
def execSeReg (x y : Reg) (s : State) : Host.Outcome State Fault Refusal :=
  .next (s.skipIf (aluEq (s.getV x) (s.getV y)))

/-- `SNE Vx, Vy` (R100). -/
def execSneReg (x y : Reg) (s : State) : Host.Outcome State Fault Refusal :=
  .next (s.skipIf (!aluEq (s.getV x) (s.getV y)))

/-- `JP V0, addr` (R101): `(zext_16(NNN) + x[0]) mod 0x10000`. -/
def execJpV0 (nnn : BitVec 12) (s : State) : Host.Outcome State Fault Refusal :=
  .next (s.jump (zextAddr nnn + zextByte (s.getV 0)))

end Sys2Proof.Machine
end

