-- ==== Sys2Proof/Machine/Index.lean ====
section
/-! DEFINITION. The meanings of spec/43_index_memory.md: the instructions that set `I` and that move bytes between
registers and memory (R115..R120). Every address is an unbounded integer, and all of an instruction's accesses are
checked against 0xFFF before anything is written (spec/20_memory.md R58). -/

namespace Sys2Proof.Machine

/-- `I` after `Fx55`/`Fx65`: `(i + X + 1) mod 0x10000` under `QUIRK_LDST_ADVANCE_I`, else unchanged (R119, R120). -/
def State.advanceIndex (s : State) (x : Reg) : State :=
  { s with i := if s.cfg.quirks.ldstAdvanceI then s.i + BitVec.ofNat 16 (x.val + 1) else s.i }

/-- The decimal digits of a byte: hundreds, tens, ones (R118). -/
def decimalDigits (b : Byte) : List Byte :=
  [BitVec.ofNat 8 (b.toNat / 100), BitVec.ofNat 8 (b.toNat / 10 % 10), BitVec.ofNat 8 (b.toNat % 10)]

/-- `LD I, addr` (R115). -/
def execLdI (nnn : BitVec 12) (s : State) : Host.Outcome State Fault Refusal :=
  .next { s with i := zextAddr nnn }.advance

/-- `ADD I, Vx` (R116): modulo 0x10000; `VF` only under `QUIRK_FX1E_VF`. -/
def execAddI (x : Reg) (s : State) : Host.Outcome State Fault Refusal :=
  let b := s.getV x
  let s' := { s with i := s.i + zextByte b }
  .next (if s.cfg.quirks.fx1eVf then (s'.setVF (indexOverflow s.i b)).advance else s'.advance)

/-- `LD F, Vx` (R117): `FONT_BASE + 5 * x[X]`, `x[X]` not masked. -/
def execLdF (x : Reg) (s : State) : Host.Outcome State Fault Refusal :=
  .next { s with i := BitVec.ofNat 16 (s.cfg.fontBase.val + 5 * (s.getV x).toNat) }.advance

/-- `LD B, Vx` (R118). -/
def execLdB (x : Reg) (s : State) : Host.Outcome State Fault Refusal :=
  if s.i.toNat + 2 > 0xFFF then raise .memoryOutOfRange (.ldB x) s
  else .next (s.storeBytes s.i.toNat (decimalDigits (s.getV x))).advance

/-- `LD [I], Vx` (R119). -/
def execStoreRegs (x : Reg) (s : State) : Host.Outcome State Fault Refusal :=
  if s.i.toNat + x.val > 0xFFF then raise .memoryOutOfRange (.storeRegs x) s
  else .next ((s.storeBytes s.i.toNat (s.bytesUpTo x)).advanceIndex x).advance

/-- `LD Vx, [I]` (R120): every byte is read before any register is written. -/
def execLoadRegs (x : Reg) (s : State) : Host.Outcome State Fault Refusal :=
  if s.i.toNat + x.val > 0xFFF then raise .memoryOutOfRange (.loadRegs x) s
  else
    let loaded := (regsUpTo x).map (fun k => (k, s.byteAt (s.i.toNat + k.val)))
    .next ((s.setRegs loaded).advanceIndex x).advance

end Sys2Proof.Machine
end

