-- ==== Sys2Proof/Machine/KeyTimer.lean ====
section
/-! DEFINITION. The meanings of spec/45_keypad_timer.md: the key skips, the timer reads and writes, and the key wait
(R124..R129). -/

namespace Sys2Proof.Machine

/-- `SKP Vx` (R124). -/
def execSkp (x : Reg) (s : State) : Host.Outcome State Fault Refusal :=
  match s.keyOperand x with
  | none => raise .keyIndexOutOfRange (.skp x) s
  | some k => .next (s.skipIf (s.keyDown k))

/-- `SKNP Vx` (R125). -/
def execSknp (x : Reg) (s : State) : Host.Outcome State Fault Refusal :=
  match s.keyOperand x with
  | none => raise .keyIndexOutOfRange (.sknp x) s
  | some k => .next (s.skipIf (!s.keyDown k))

/-- `LD Vx, DT` (R126). -/
def execLdVxDt (x : Reg) (s : State) : Host.Outcome State Fault Refusal :=
  .next (s.setV x s.dt).advance

/-- `LD Vx, K` (R127): enter the wait; `pc` is not written. -/
def execLdVxK (x : Reg) (s : State) : Host.Outcome State Fault Refusal :=
  .next { s with ws := .awaitingKey x }

/-- `LD DT, Vx` (R128). -/
def execLdDtVx (x : Reg) (s : State) : Host.Outcome State Fault Refusal :=
  .next { s with dt := s.getV x }.advance

/-- `LD ST, Vx` (R129). -/
def execLdStVx (x : Reg) (s : State) : Host.Outcome State Fault Refusal :=
  .next { s with st := s.getV x }.advance

end Sys2Proof.Machine
end

