-- ==== Sys2Proof/Machine/Step.lean ====
section
/-! DEFINITION. The `step` transaction (spec/40_engine_cycle.md R79): at most one instruction, in six stages. -/

namespace Sys2Proof.Machine

/-- One step. A halted machine and a waiting machine change nothing (R80, R81). Otherwise the word at `pc` is fetched,
decoded and executed (R82, R83, R84); a fault of a stage is latched and nothing else changes (R85). The random byte of
the step is `s.rand` (R90). -/
def step (s : State) : Host.Outcome State Fault Refusal :=
  if s.halted then .next s
  else if s.waiting then .next s
  else
    match s.fetchWord with
    | none => .next (s.takeFault .memoryOutOfRange none)
    | some w =>
      match decode w with
      | none => .next (s.takeFault .decodeError (some w))
      | some i => exec i s

/-- `s` with the word `w` (its bits above `nbits` zero) stored where the next step fetches, high byte first (R56).
A halted or waiting machine, or one whose `pc` lies beyond 0xFFE, would fetch nothing: there the latch is cleared, the
wait ended and `pc` set to the entry point (R159). -/
def State.withFetchWord (s : State) (nbits w : Nat) : State :=
  let word : Word := BitVec.ofNat 16 (w % 2 ^ nbits)
  let running := { s with
    fault := FaultLatch.clear
    ws := .running
    pc := if s.pc.toNat + 1 > 0xFFF then 0x200 else s.pc }
  running.storeBytes running.pc.toNat [highByte word, lowByte word]

end Sys2Proof.Machine
end

