-- ==== Sys2Proof/Machine/Transactions.lean ====
section
/-! DEFINITION. The transactions of spec/00_scope.md R7 Table T1 other than a bare step: `step(rand)`, `tick`,
`set_key`, `load` and `reset`, each one atomic change (R8), and every finite or infinite sequence of them (R9). -/

namespace Sys2Proof.Machine

/-- A transaction with its inputs (R7 Table T1). -/
inductive Transaction where
  | step (rand : Byte)
  | tick
  | setKey (k : Key) (pressed : Bool)
  | load (bytes : List Byte)
  | reset
  deriving DecidableEq, Repr

/-- What a transaction answers: one of the four results of `step` (R79), one of the two of `load` (R158), or nothing. -/
inductive TransactionResult where
  | ran | waiting | faulted | halted
  | ok | programTooLarge
  | done
  deriving DecidableEq, Repr

/-- A timer's next value: "if > 0, decrement by 1" (spec/60_exceptions.md R143, R144). -/
def countDown (b : Byte) : Byte := if b.toNat > 0 then b - 1 else b

/-- `tick()` (R143). -/
def tick (s : State) : State :=
  if s.halted then s else { s with dt := countDown s.dt, st := countDown s.st }

/-- `resolve(t, k)`: complete the `Fx0A` at `pc` (R147). -/
def resolveKey (t : Reg) (k : Key) (s : State) : State :=
  { (s.setV t (BitVec.ofNat 8 k.val)).advance with ws := .running }

/-- `set_key(k, pressed)` (R146): only a key-down on a waiting machine that is not halted resolves the wait. -/
def setKey (k : Key) (pressed : Bool) (s : State) : State :=
  let down := pressed && !s.keyDown k
  let s' := { s with key := s.key.set k.val pressed k.isLt }
  match s.ws with
  | .running => s'
  | .awaitingKey t => if down && !s.halted then resolveKey t k s' else s'

/-- `load(bytes)` (spec/70_reset_and_hazards.md R158): the bytes at 0x200, or `none` for `ProgramTooLarge`. -/
def load (bytes : List Byte) (s : State) : Option State :=
  if 0x200 + bytes.length > 0x1000 then none else some (s.storeBytes 0x200 bytes)

/-- `reset()` (R157): every field takes its construction value but `key` and `mem[0x200..0xFFF]`. -/
def resetMachine (s : State) : State :=
  { State.construct s.cfg with
    key := s.key
    mem := Memory.restoreReserved s.mem
    rand := s.rand
    randCount := s.randCount }

/-- The result of a step from `s` to `t` (R79, R80, R81, R85, R86): a running machine that a step leaves halted
faulted. -/
def stepResult (s t : State) : TransactionResult :=
  if s.halted then .halted
  else if s.waiting then .waiting
  else if t.halted then .faulted
  else .ran

/-- `step(rand)`: a step whose random byte is the one the transaction carries (R79, R90). The free bytes of a bare
step are left as they were (log 2). -/
def stepWith (rand : Byte) (s : State) : Host.Outcome State Fault Refusal :=
  match step { s with rand := rand } with
  | .next t => .next { t with rand := s.rand, randCount := s.randCount }
  | .fault f => .fault f
  | .refused r => .refused r

/-- One transaction: the next state and what it answers (R7 Table T1, R8). -/
def transact (t : Transaction) (s : State) : Host.Outcome (State × TransactionResult) Fault Refusal :=
  match t with
  | .step rand =>
    match stepWith rand s with
    | .next s' => .next (s', stepResult s s')
    | .fault f => .fault f
    | .refused r => .refused r
  | .tick => .next (tick s, .done)
  | .setKey k pressed => .next (setKey k pressed s, .done)
  | .load bytes =>
    match load bytes s with
    | some s' => .next (s', .ok)
    | none => .next (s, .programTooLarge)
  | .reset => .next (resetMachine s, .done)

/-- A finite sequence of transactions, in the order the host issues them (R8, R9). -/
def transactAll : List Transaction → State → Host.Outcome State Fault Refusal
  | [], s => .next s
  | t :: rest, s =>
    match transact t s with
    | .next (s', _) => transactAll rest s'
    | .fault f => .fault f
    | .refused r => .refused r

/-- An infinite sequence of transactions `ts 0`, `ts 1`, ... (R9): the state after its first `n`. It has no last state,
so its run is the states after every `n`. -/
def runAt (ts : Nat → Transaction) (s : State) : Nat → Host.Outcome State Fault Refusal
  | 0 => .next s
  | n + 1 =>
    match runAt ts s n with
    | .next t => transactAll [ts n] t
    | .fault f => .fault f
    | .refused r => .refused r

end Sys2Proof.Machine
end

