-- ==== Sys2Proof/Machine/Ports.lean ====
section
/-! DEFINITION. The output ports of spec/00_scope.md R7 Table T1: each shows the state between transactions (R8) and
changes nothing (spec/60_exceptions.md R150). -/

namespace Sys2Proof.Machine

/-- The numeric code of a fault (R38, R130 Table G1). -/
def EngineFault.number : EngineFault → BitVec 3
  | .decodeError => 1
  | .stackOverflow => 2
  | .stackUnderflow => 3
  | .memoryOutOfRange => 4
  | .keyIndexOutOfRange => 5

/-- `fault.code`, 3 bits: 0 is `None` (R38). -/
def FaultLatch.number (l : FaultLatch) : BitVec 3 :=
  match l.code with
  | none => 0
  | some f => f.number

/-- The `fault` port: code, address, word and word-valid (R7, R38). -/
def State.faultPort (s : State) : BitVec 3 × Word × Word × BitVec 1 :=
  (s.fault.number, s.fault.addr, s.fault.word, BitVec.ofBool s.fault.wordValid)

/-- The `waiting` port, `is_waiting_for_key()` (R36, R148). -/
def State.waitingPort (s : State) : Bool := s.waiting

/-- `ws.target`: the target register while waiting, 0 otherwise (R36). -/
def State.waitTarget (s : State) : Reg :=
  match s.ws with
  | .running => 0
  | .awaitingKey t => t

/-- The `sound_timer` port, `get_sound_timer()` (R33). -/
def State.soundTimerPort (s : State) : Byte := s.st

/-- The `framebuffer` port, `get_framebuffer()`: 2048 bits, bit `64*y + x` is `fb[y][x]` (R34). -/
def State.framebufferPort (s : State) : BitVec 2048 :=
  BitVec.ofFnLE (fun k : Fin 2048 => Framebuffer.cell s.fb (Fin.ofNat 64 k.val) (Fin.ofNat 32 (k.val / 64)))

/-- The `snapshot` port: the whole state (R40). -/
def State.snapshotPort (s : State) : State := s

/-- The identity string of a configuration (R2, D28). The values of the switches that are on are the model's spelling:
the spec writes only the defaults (log 13). Braces are written by their code points. -/
def identity (c : Config) : String :=
  "CHIP-8/RemmyLee-CORE" ++ String.singleton (Char.ofNat 123)
    ++ "shift=" ++ (if c.quirks.shiftVy then "vy" else "vx")
    ++ ",ldst_i=" ++ (if c.quirks.ldstAdvanceI then "advance" else "fixed")
    ++ ",logic_vf=" ++ (if c.quirks.logicVfReset then "reset" else "keep")
    ++ ",fx1e_vf=" ++ (if c.quirks.fx1eVf then "set" else "keep")
    ++ String.singleton (Char.ofNat 125)

end Sys2Proof.Machine
end

