-- ==== Sys2Proof/Safety.lean ====
section
/-! DEFINITION. The terms the statements use, written from the spec and not from the meanings: which fault an
instruction raises (spec/60_exceptions.md R130 Table G1), its next pc (spec/40_engine_cycle.md R87 Table PC1), its row of
Table O1 (spec/30_encoding.md R71), what a frame is, and the invariant of the machine. -/

namespace Sys2Proof.Machine

/-! ### Table O1: `match` and `mask` of an instruction's row -/

/-- The `match` and the `mask` of the instruction's row of Table O1 (R71). -/
def tableO1 : Instr → Word × Word
  | .cls => (0x00E0, 0xFFFF)
  | .ret => (0x00EE, 0xFFFF)
  | .jp _ => (0x1000, 0xF000)
  | .call _ => (0x2000, 0xF000)
  | .seByte _ _ => (0x3000, 0xF000)
  | .sneByte _ _ => (0x4000, 0xF000)
  | .seReg _ _ => (0x5000, 0xF00F)
  | .ldByte _ _ => (0x6000, 0xF000)
  | .addByte _ _ => (0x7000, 0xF000)
  | .ldReg _ _ => (0x8000, 0xF00F)
  | .orReg _ _ => (0x8001, 0xF00F)
  | .andReg _ _ => (0x8002, 0xF00F)
  | .xorReg _ _ => (0x8003, 0xF00F)
  | .addReg _ _ => (0x8004, 0xF00F)
  | .subReg _ _ => (0x8005, 0xF00F)
  | .shr _ _ => (0x8006, 0xF00F)
  | .subn _ _ => (0x8007, 0xF00F)
  | .shl _ _ => (0x800E, 0xF00F)
  | .sneReg _ _ => (0x9000, 0xF00F)
  | .ldI _ => (0xA000, 0xF000)
  | .jpV0 _ => (0xB000, 0xF000)
  | .rnd _ _ => (0xC000, 0xF000)
  | .drw _ _ _ => (0xD000, 0xF000)
  | .skp _ => (0xE09E, 0xF0FF)
  | .sknp _ => (0xE0A1, 0xF0FF)
  | .ldVxDt _ => (0xF007, 0xF0FF)
  | .ldVxK _ => (0xF00A, 0xF0FF)
  | .ldDtVx _ => (0xF015, 0xF0FF)
  | .ldStVx _ => (0xF018, 0xF0FF)
  | .addI _ => (0xF01E, 0xF0FF)
  | .ldF _ => (0xF029, 0xF0FF)
  | .ldB _ => (0xF033, 0xF0FF)
  | .storeRegs _ => (0xF055, 0xF0FF)
  | .loadRegs _ => (0xF065, 0xF0FF)

/-- The words that R74 lists as illegal, class by class, on the fields of R67. -/
def illegalWord (w : Nat) : Prop :=
  (w / 0x1000 = 0x0 ∧ w ≠ 0x00E0 ∧ w ≠ 0x00EE) ∨
  (w / 0x1000 = 0x5 ∧ w % 16 ≠ 0) ∨
  (w / 0x1000 = 0x8 ∧ w % 16 ∈ [0x8, 0x9, 0xA, 0xB, 0xC, 0xD, 0xF]) ∨
  (w / 0x1000 = 0x9 ∧ w % 16 ≠ 0) ∨
  (w / 0x1000 = 0xE ∧ w % 256 ∉ [0x9E, 0xA1]) ∨
  (w / 0x1000 = 0xF ∧ w % 256 ∉ [0x07, 0x0A, 0x15, 0x18, 0x1E, 0x29, 0x33, 0x55, 0x65])

/-! ### Table G1 and Table PC1 -/

/-- The fault the instruction raises in `s`, if any (R130 Table G1; R94, R96, R118..R120, R122, R124, R125). -/
def faultCause (i : Instr) (s : State) : Option EngineFault :=
  match i with
  | .ret => if s.sp.val = 0 then some .stackUnderflow else none
  | .call _ => if s.sp.val = 16 then some .stackOverflow else none
  | .drw _ _ n => if 0 < n ∧ s.i.toNat + n - 1 > 0xFFF then some .memoryOutOfRange else none
  | .ldB _ => if s.i.toNat + 2 > 0xFFF then some .memoryOutOfRange else none
  | .storeRegs x | .loadRegs x => if s.i.toNat + x.val > 0xFFF then some .memoryOutOfRange else none
  | .skp x | .sknp x =>
    if (s.getV x).toNat > 15 ∧ s.cfg.keyIndexPolicy = .fault then some .keyIndexOutOfRange else none
  | .cls | .jp _ | .jpV0 _ | .ldI _ | .seByte _ _ | .sneByte _ _ | .ldByte _ _ | .addByte _ _ | .rnd _ _ => none
  | .seReg _ _ | .sneReg _ _ | .ldReg _ _ | .orReg _ _ | .andReg _ _ | .xorReg _ _ => none
  | .addReg _ _ | .subReg _ _ | .shr _ _ | .subn _ _ | .shl _ _ => none
  | .ldVxDt _ | .ldVxK _ | .ldDtVx _ | .ldStVx _ | .addI _ | .ldF _ => none

/-- `a + 4` if the skip is taken, else `a + 2`. -/
def skipPc (a : Word) (taken : Prop) [Decidable taken] : Word := if taken then a + 4 else a + 2

/-- The next pc of an instruction that does not fault (R87 Table PC1; R88: modulo 0x10000). -/
def nextPc (i : Instr) (s : State) : Word :=
  match i with
  | .seByte x nn => skipPc s.pc (s.getV x = nn)
  | .sneByte x nn => skipPc s.pc (s.getV x ≠ nn)
  | .seReg x y => skipPc s.pc (s.getV x = s.getV y)
  | .sneReg x y => skipPc s.pc (s.getV x ≠ s.getV y)
  | .skp x => skipPc s.pc (s.keyDown (Fin.ofNat 16 (s.getV x).toNat) = true)
  | .sknp x => skipPc s.pc (s.keyDown (Fin.ofNat 16 (s.getV x).toNat) = false)
  | .jp nnn | .call nnn => BitVec.ofNat 16 nnn.toNat
  | .jpV0 nnn => BitVec.ofNat 16 (nnn.toNat + (s.getV 0).toNat)
  | .ret => s.stack.toList.getD (s.sp.val - 1) 0
  | .ldVxK _ => s.pc
  | .cls | .ldI _ | .ldByte _ _ | .addByte _ _ | .rnd _ _ | .drw _ _ _ => s.pc + 2
  | .ldReg _ _ | .orReg _ _ | .andReg _ _ | .xorReg _ _ => s.pc + 2
  | .addReg _ _ | .subReg _ _ | .shr _ _ | .subn _ _ | .shl _ _ => s.pc + 2
  | .ldVxDt _ | .ldDtVx _ | .ldStVx _ | .addI _ | .ldF _ | .ldB _ | .storeRegs _ | .loadRegs _ => s.pc + 2

/-! ### Frames -/

/-- A part of the state an instruction may write, other than the registers and `pc`. -/
inductive Field where
  | i | stack | dt | st | fb | ws | mem | rand
  deriving DecidableEq, Repr

/-- From `s` to `t` nothing changes but `pc`, the registers `r` with `regs r`, and the parts in `fields`: no key, no
parameter, no field of the fault latch. Memory is compared byte by byte. -/
def Keeps (regs : Reg → Prop) (fields : List Field) (s t : State) : Prop :=
  t.cfg = s.cfg ∧ t.key = s.key ∧ t.fault = s.fault ∧
  (∀ r, ¬ regs r → t.getV r = s.getV r) ∧
  (.i ∉ fields → t.i = s.i) ∧
  (.stack ∉ fields → t.sp = s.sp ∧ t.stack = s.stack) ∧
  (.dt ∉ fields → t.dt = s.dt) ∧
  (.st ∉ fields → t.st = s.st) ∧
  (.fb ∉ fields → t.fb = s.fb) ∧
  (.ws ∉ fields → t.ws = s.ws) ∧
  (.mem ∉ fields → ∀ a, t.byteAt a = s.byteAt a) ∧
  (.rand ∉ fields → t.rand = s.rand ∧ t.randCount = s.randCount)

/-- No register changes. -/
def noReg : Reg → Prop := fun _ => False

/-- The machine executes an instruction at its next step: not halted (R80) and not waiting (R81). -/
def State.running (s : State) : Prop := s.halted = false ∧ s.waiting = false

/-- Execute calls one after another (R132). -/
def callAll : List (BitVec 12) → State → Host.Outcome State Fault Refusal
  | [], s => .next s
  | nnn :: rest, s =>
    match exec (.call nnn) s with
    | .next t => callAll rest t
    | .fault f => .fault f
    | .refused r => .refused r

/-- The sprite that `Dxyn` draws has a set bit on the cell `(px, py)`: bit `7 - b` of the byte at `I + r`, at column
`(Vx mod 64 + b) mod 64` and row `(Vy mod 32 + r) mod 32` (spec/44_display.md R122, R123). -/
def spriteCovers (s : State) (x y : Reg) (n : Nat) (px : Fin 64) (py : Fin 32) : Prop :=
  ∃ r < n, ∃ b < 8, (s.byteAt (s.i.toNat + r)).getLsbD (7 - b) = true ∧
    px.val = ((s.getV x).toNat % 64 + b) % 64 ∧ py.val = ((s.getV y).toNat % 32 + r) % 32

/-- Memory as an array with `n` bytes `f 0`, `f 1`, ... written from `base` up and every other byte as in `s`
(spec/20_memory.md R53, R62). -/
def overlay (s : State) (base n : Nat) (f : Nat → Byte) (a : Nat) : Byte :=
  if base ≤ a ∧ a < base + n then f (a - base) else s.byteAt a

/-- The numeric code of a fault latch (spec/10_state.md R38; spec/60_exceptions.md R130 Table G1). -/
def faultCode : Option EngineFault → BitVec 3
  | none => 0
  | some .decodeError => 1
  | some .stackOverflow => 2
  | some .stackUnderflow => 3
  | some .memoryOutOfRange => 4
  | some .keyIndexOutOfRange => 5

/-! ### The invariant -/

/-- The fault latch tells the truth (R38, R130, R136, R137): clear on a machine that has not faulted; on a halted one
the address is the pc, and either the recorded word is illegal (`DecodeError`), or it is an instruction that raises the
recorded fault in this very state, or there is no word and the fetch went beyond memory. -/
def latchSound (s : State) : Prop :=
  match s.fault.code with
  | none => s.fault = FaultLatch.clear
  | some f =>
    s.fault.addr = s.pc ∧
    (if s.fault.wordValid then
      s.pc.toNat ≤ 0xFFE ∧
      (match decode s.fault.word with
        | none => f = .decodeError
        | some i => faultCause i s = some f)
    else s.fault.word = 0 ∧ f = .memoryOutOfRange ∧ 0xFFF ≤ s.pc.toNat)

/-- The invariant of the machine: memory is canonical (the model's own form, log 4, of the array of R53), the latch is
sound, no machine is both waiting and halted (R149), and a waiting machine's `pc` is the address of a fetched instruction (R82, R127). -/
def MachineInv (s : State) : Prop :=
  Memory.wf s.cfg s.mem ∧ latchSound s ∧ ¬ (s.halted = true ∧ s.waiting = true) ∧
  (s.waiting = true → s.pc.toNat ≤ 0xFFE)

end Sys2Proof.Machine
end

