-- ==== Sys2Proof/Certificates/Slice0/Obligations.lean ====
section
/-! DEFINITION. The statements about the machine, one `def Obligations.<Name> : Prop` each. A statement marked
"derived" in OBLIGATIONS.json rests, in some clause, on a choice or an inference that the spec marks as its own, or on
a choice of the model: its docstring names it. -/

open Sys2Proof Sys2Proof.Machine

/-! ## Decoding and encoding (spec/30_encoding.md) -/

/-- Decoding is right on words written out from Table O1, one or more of each operand shape (R69, R71). -/
def Obligations.WordsWrittenOutDecode : Prop :=
  decode 0x00EE = some .ret ∧ decode 0x1234 = some (.jp 0x234) ∧ decode 0x2ABC = some (.call 0xABC) ∧
  decode 0x332A = some (.seByte 3 0x2A) ∧ decode 0x8F15 = some (.subReg 15 1) ∧ decode 0x823E = some (.shl 2 3) ∧
  decode 0xD01F = some (.drw 0 1 15) ∧ decode 0xE2A1 = some (.sknp 2) ∧ decode 0xF265 = some (.loadRegs 2) ∧
  decode 0x0000 = none ∧ decode 0x8008 = none ∧ decode 0xF0FF = none

/-- The word of a well-formed instruction decodes to that instruction, with every operand at every value
(R67, R69, R70, R71). -/
def Obligations.DecodeOfEncode : Prop :=
  ∀ i : Instr, i.wellFormed = true → decode (encode i) = some i

/-- A word that decodes is the word of what it decodes to, which is well-formed: no bit of a legal word is dropped.
It is what makes the latch's word the fetched word (log 5). -/
def Obligations.EncodeOfDecode : Prop :=
  ∀ (w : Word) (i : Instr), decode w = some i → i.wellFormed = true ∧ encode i = w

/-- A word decodes to an instruction of a row of Table O1 exactly when `w & mask == match` for that row, for each of
the 34 rows as the table gives `match` and `mask` (R71). -/
def Obligations.WordSelectsItsRowOfTableO1 : Prop :=
  (∀ (w : Word) (i : Instr), decode w = some i → w &&& (tableO1 i).2 = (tableO1 i).1) ∧
  (∀ (w : Word) (j : Instr), w &&& (tableO1 j).2 = (tableO1 j).1 →
    ∃ i, decode w = some i ∧ tableO1 i = tableO1 j)

/-- The illegal words are exactly those R74 lists by class. Derived: R74 infers from the table that class 0 holds no
machine-code call. -/
def Obligations.IllegalWordsByClass : Prop :=
  ∀ w : Word, decode w = none ↔ illegalWord w.toNat

/-! ## Reset, construction and loading (spec/10_state.md, spec/70_reset_and_hazards.md) -/

/-- Every field after construction, for every choice of the parameters; and `State.reset` is construction with the
spec's default parameters. Derived: the font's place and bytes (D3, D4), the zero memory (D6), the clear latch (D14, D23),
the running wait state (D23) and the released keys (D24) are the spec's decisions, as Table I1 cites them; the last clause
is the model's own deduction, that its reset state is construction (log 7) with the parameters, held in State, at their
defaults (log 1). -/
def Obligations.ConstructionValues : Prop :=
  (∀ c : Config,
    let s := State.construct c
    s.cfg = c ∧ (∀ r, s.getV r = 0) ∧ s.i = 0 ∧ s.pc = 0x200 ∧ s.sp = 0 ∧ (∀ k, ∀ h : k < 16, s.stack[k] = 0) ∧
    s.dt = 0 ∧ s.st = 0 ∧ (∀ px py, Framebuffer.cell s.fb px py = false) ∧ (∀ k, s.keyDown k = false) ∧
    s.waiting = false ∧ s.waitTarget = 0 ∧ s.halted = false ∧ s.faultPort = (0, 0, 0, 0) ∧
    (∀ j, ∀ h : j < 80, s.byteAt (c.fontBase.val + j) = c.fontGlyphs[j]) ∧
    (∀ a, a < c.fontBase.val ∨ c.fontBase.val + 80 ≤ a → s.byteAt a = 0)) ∧
  State.reset = State.construct Config.default

/-- The `reset` transaction, in every state: every field takes its construction value, but for the keys and
0x200..0xFFF, which keep theirs; the reserved region and the font are restored. Derived: what reset keeps is the
spec's decision D23. -/
def Obligations.ResetTransactionValues : Prop :=
  ∀ s : State,
    let t := resetMachine s
    let c := State.construct s.cfg
    transact .reset s = .next (t, .done) ∧
    t.cfg = s.cfg ∧ t.v = c.v ∧ t.i = c.i ∧ t.pc = 0x200 ∧ t.sp = c.sp ∧ t.stack = c.stack ∧ t.dt = 0 ∧ t.st = 0 ∧
    t.fb = c.fb ∧ t.ws = .running ∧ t.fault = FaultLatch.clear ∧ t.key = s.key ∧
    (∀ a < 0x200, t.byteAt a = c.byteAt a) ∧ (∀ a, 0x200 ≤ a → t.byteAt a = s.byteAt a)

/-- `load`: a program that fits is written at 0x200 and nothing else changes; one that does not fit writes nothing.
Derived: that a failed load writes nothing is the spec's decision D33. -/
def Obligations.LoadWritesProgramAt200 : Prop :=
  ∀ (bs : List Byte) (s : State),
    (bs.length ≤ 0xE00 → ∃ t, transact (.load bs) s = .next (t, .ok) ∧
      t.pc = s.pc ∧ Keeps noReg [.mem] s t ∧
      (∀ k, ∀ h : k < bs.length, t.byteAt (0x200 + k) = bs[k]) ∧
      (∀ a, a < 0x200 ∨ 0x200 + bs.length ≤ a → t.byteAt a = s.byteAt a)) ∧
    (0xE00 < bs.length → transact (.load bs) s = .next (s, .programTooLarge))

/-! ## The step (spec/40_engine_cycle.md) -/

/-- A step runs the decoded instruction: on a running machine whose word at `pc` decodes, the step is the meaning of
that instruction in the same state, with nothing around it. Derived: of R82 and R84 it states the fetch and the choice
of the meaning; the order of the writes inside a meaning stands in the statements about instructions. -/
def Obligations.StepRunsDecodedInstruction : Prop :=
  ∀ (s : State) (i : Instr), s.running → s.pc.toNat ≤ 0xFFE →
    decode (wordOfBytes (s.byteAt s.pc.toNat) (s.byteAt (s.pc.toNat + 1))) = some i → step s = exec i s

/-- A halted machine's step answers `Halted` and a waiting machine's step `Waiting`, and both change nothing. Derived:
the spec's decisions D14 and D16. -/
def Obligations.HaltedAndWaitingStepsChangeNothing : Prop :=
  ∀ (s : State) (b : Byte),
    (s.halted = true → step s = .next s ∧ transact (.step b) s = .next (s, .halted)) ∧
    (s.halted = false → s.waiting = true → step s = .next s ∧ transact (.step b) s = .next (s, .waiting))

/-- The faults of fetch and decode write the latch and nothing else: a fetch at `pc >= 0xFFF` latches
`MemoryOutOfRange` with the address `pc` and no word, an illegal word `DecodeError` with its address and the word.
Derived: the spec's decisions D10, D12 and D13. -/
def Obligations.FetchAndDecodeFaultsWriteOnlyLatch : Prop :=
  ∀ s : State, s.running →
    (0xFFF ≤ s.pc.toNat → step s = .next { s with
      fault := { code := some .memoryOutOfRange, addr := s.pc, word := 0, wordValid := false } }) ∧
    (∀ w, s.pc.toNat ≤ 0xFFE → wordOfBytes (s.byteAt s.pc.toNat) (s.byteAt (s.pc.toNat + 1)) = w → decode w = none →
      step s = .next { s with
        fault := { code := some .decodeError, addr := s.pc, word := w, wordValid := true } })

/-- A fetched word raises `DecodeError`, with its address and the word, exactly when it matches no row of Table O1; a
word that matches a row is decoded to an instruction of that row (R83). -/
def Obligations.IllegalWordRaisesDecodeError : Prop :=
  ∀ (s : State) (w : Word), s.running → s.pc.toNat ≤ 0xFFE →
    wordOfBytes (s.byteAt s.pc.toNat) (s.byteAt (s.pc.toNat + 1)) = w →
    ((∀ j : Instr, w &&& (tableO1 j).2 ≠ (tableO1 j).1) →
      ∃ t, step s = .next t ∧ t.fault.code = some .decodeError ∧ t.fault.addr = s.pc ∧ t.fault.word = w) ∧
    (∀ j : Instr, w &&& (tableO1 j).2 = (tableO1 j).1 →
      ∃ i t, decode w = some i ∧ tableO1 i = tableO1 j ∧ step s = .next t ∧ t.fault.code ≠ some .decodeError)

/-- Every step answers a next state, and with it exactly one of the four results (R79); and the state that `step(b)`
answers is the one the bare step reaches with `b` as its random byte, the model's free bytes put back. Derived: the
results on a halted and a waiting machine are the spec's decisions D14 and D16, that a fault is a next state is log 3,
how the result is read off is log 19, and the fields `rand` and `randCount` are the model's own (log 2). -/
def Obligations.EveryStepAnswersNext : Prop :=
  ∀ (s : State) (b : Byte), (∃ t, step s = .next t) ∧
    ∃ t' t r, step { s with rand := b } = .next t' ∧ transact (.step b) s = .next (t, r) ∧
      t = { t' with rand := s.rand, randCount := s.randCount } ∧
      (r = .halted ↔ s.halted = true) ∧ (r = .waiting ↔ s.halted = false ∧ s.waiting = true) ∧
      (r = .faulted ↔ s.running ∧ t.halted = true) ∧ (r = .ran ↔ s.running ∧ t.halted = false)

/-- The next pc of every step of a running machine that fetches a word: Table PC1 for an instruction that does not
fault, and unchanged for one that does or for an illegal word (R87). -/
def Obligations.NextPcFollowsTablePC1 : Prop :=
  ∀ (s t : State), s.running → s.pc.toNat ≤ 0xFFE → step s = .next t →
    match decode (wordOfBytes (s.byteAt s.pc.toNat) (s.byteAt (s.pc.toNat + 1))) with
    | none => t.pc = s.pc
    | some i => if (faultCause i s).isSome then t.pc = s.pc else t.pc = nextPc i s

/-- A step writes `DT` only by `Fx15` and `ST` only by `Fx18`, with the value of `Vx`, and writes no key; a tick
writes nothing but the timers (R89). -/
def Obligations.StepWritesTimersOnlyByFx15Fx18 : Prop :=
  (∀ s : State, tick s = { s with dt := (tick s).dt, st := (tick s).st }) ∧
  ∀ (s t : State), step s = .next t →
    t.key = s.key ∧
    (t.dt ≠ s.dt → ∃ w x, s.fetchWord = some w ∧ decode w = some (.ldDtVx x) ∧ t.dt = s.getV x) ∧
    (t.st ≠ s.st → ∃ w x, s.fetchWord = some w ∧ decode w = some (.ldStVx x) ∧ t.st = s.getV x)

/-- The random byte reaches no instruction but `Cxnn`: with another one, every other instruction does the same.
Derived: the spec's decision D22 makes `rand` a free input. -/
def Obligations.OnlyRndReadsRand : Prop :=
  ∀ (i : Instr) (s : State) (b : Byte), (∀ x nn, i ≠ .rnd x nn) →
    ∃ t, exec i s = .next t ∧ exec i { s with rand := b } = .next { t with rand := b }

/-- The quirk switches are read by `8xy1`, `8xy2`, `8xy3`, `8xy6`, `8xyE`, `Fx1E`, `Fx55` and `Fx65` and by no other
instruction, and no transaction changes them or any parameter (R91). Derived: that each of the eight does read its
switch stands in the statements about them. -/
def Obligations.OnlyQuirkInstructionsReadQuirks : Prop :=
  (∀ (i : Instr) (s : State) (q : Quirks),
    (∀ x y, i ≠ .orReg x y ∧ i ≠ .andReg x y ∧ i ≠ .xorReg x y ∧ i ≠ .shr x y ∧ i ≠ .shl x y) →
    (∀ x, i ≠ .addI x ∧ i ≠ .storeRegs x ∧ i ≠ .loadRegs x) →
    ∃ t, exec i s = .next t ∧
      exec i { s with cfg := { s.cfg with quirks := q } } = .next { t with cfg := { t.cfg with quirks := q } }) ∧
  (∀ (tr : Transaction) (s t : State) (r : TransactionResult), transact tr s = .next (t, r) → t.cfg = s.cfg)

/-! ## Faults (spec/60_exceptions.md) -/

/-- Each instruction raises exactly the fault Table G1 gives it in the state, and then only the latch changes: its
code, the address `pc`, the word, and `word_valid = 1`. Derived: that a faulting instruction changes nothing else, and
which fields the latch has, are the spec's decisions D12, D13 and D17; R136 latches the fetched word, and that this word
is `encode i` is the model's choice of log 5, which `EncodeOfDecode` backs. -/
def Obligations.FaultsArePreciseAndLatched : Prop :=
  ∀ (i : Instr) (s : State),
    match faultCause i s with
    | some f => exec i s = .next { s with
        fault := { code := some f, addr := s.pc, word := encode i, wordValid := true } }
    | none => ∃ t, exec i s = .next t ∧ t.fault = s.fault

/-- `MemoryOutOfRange` is raised by a fetch at `pc >= 0xFFF`, by `Dxyn` with `N > 0` and `I + N - 1 > 0xFFF`, by `Fx33`
with `I + 2 > 0xFFF`, by `Fx55` and `Fx65` with `I + X > 0xFFF`, and by nothing else: no write of `I` or `pc` raises it
(R133). -/
def Obligations.MemoryOutOfRangeExactly : Prop :=
  ∀ (s t : State), s.running → step s = .next t →
    (t.fault.code = some .memoryOutOfRange ↔
      0xFFF ≤ s.pc.toNat ∨
      ∃ w i, s.fetchWord = some w ∧ decode w = some i ∧
        ((∃ x y n, i = .drw x y n ∧ 0 < n ∧ s.i.toNat + n - 1 > 0xFFF) ∨
         (∃ x, i = .ldB x ∧ s.i.toNat + 2 > 0xFFF) ∨
         (∃ x, (i = .storeRegs x ∨ i = .loadRegs x) ∧ s.i.toNat + x.val > 0xFFF)))

/-- From an empty stack, up to 16 nested calls succeed, a 17th raises `StackOverflow`, a return with the stack empty
raises `StackUnderflow`, and no other instruction raises either (R132). -/
def Obligations.StackHoldsSixteenCalls : Prop :=
  (∀ (targets : List (BitVec 12)) (s : State), s.sp = 0 → s.halted = false → targets.length ≤ 16 →
    ∃ t, callAll targets s = .next t ∧
      t.sp.val = targets.length ∧ t.halted = false ∧
      (targets.length = 16 → ∀ nnn, ∃ u, exec (.call nnn) t = .next u ∧ u.fault.code = some .stackOverflow)) ∧
  (∀ s : State, s.sp = 0 → ∃ t, exec .ret s = .next t ∧ t.fault.code = some .stackUnderflow) ∧
  (∀ (i : Instr) (s t : State), s.halted = false → exec i s = .next t →
    (t.fault.code = some .stackOverflow → ∃ nnn, i = .call nnn) ∧
    (t.fault.code = some .stackUnderflow → i = .ret))

/-- A halted machine stays halted with its latch until `reset`: Table H1. Derived: the effects of the transactions on
a halted machine are the spec's decision D14. -/
def Obligations.HaltedMachineFollowsTableH1 : Prop :=
  ∀ s : State, s.halted = true →
    (∀ b, transact (.step b) s = .next (s, .halted)) ∧
    transact .tick s = .next (s, .done) ∧
    (∀ k p, ∃ t, transact (.setKey k p) s = .next (t, .done) ∧ t = { s with key := t.key } ∧
      t.keyDown k = p ∧ ∀ q, q ≠ k → t.keyDown q = s.keyDown q) ∧
    (∀ bs, ∃ t r, transact (.load bs) s = .next (t, r) ∧ t = { s with mem := t.mem }) ∧
    (∃ t, transact .reset s = .next (t, .done) ∧ t.halted = false)

/-! ## Timers and keys between steps (spec/60_exceptions.md) -/

/-- `n` ticks take `n` from each timer, down to 0 where it stays, and change nothing else; a timer at 0 stays at 0 on
every tick; and only `Fx15` and `Fx18` give a timer another value in a step (R144). -/
def Obligations.TicksCountDownToZero : Prop :=
  (∀ (n : Nat) (s : State), s.halted = false →
    let t := (tick^[n]) s
    t.dt.toNat = s.dt.toNat - n ∧ t.st.toNat = s.st.toNat - n ∧ t = { s with dt := t.dt, st := t.st }) ∧
  (∀ s : State, (s.dt = 0 → (tick s).dt = 0) ∧ (s.st = 0 → (tick s).st = 0)) ∧
  (∀ (i : Instr) (s t : State), exec i s = .next t →
    (t.dt ≠ s.dt → ∃ x, i = .ldDtVx x) ∧ (t.st ≠ s.st → ∃ x, i = .ldStVx x))

/-- The first key-down resolves the wait: the key's number goes to the target register (`VF` like any other), `pc`
advances by 2 without a fetch, the machine runs again; any later key event changes only `key` (R147). -/
def Obligations.KeyDownResolvesWait : Prop :=
  ∀ (s : State) (x : Reg) (k : Key), s.ws = .awaitingKey x → s.halted = false → s.keyDown k = false →
    ∃ t, transact (.setKey k true) s = .next (t, .done) ∧
      t.ws = .running ∧ t.waitTarget = 0 ∧ t.pc = s.pc + 2 ∧
      t.getV x = BitVec.ofNat 8 k.val ∧ (∀ r, r ≠ x → t.getV r = s.getV r) ∧
      t.keyDown k = true ∧ (∀ q, q ≠ k → t.keyDown q = s.keyDown q) ∧
      t = { s with v := t.v, pc := t.pc, ws := t.ws, key := t.key } ∧
      ∀ q p, ∃ u, transact (.setKey q p) t = .next (u, .done) ∧ u = { t with key := u.key }

/-- A repeat, a release and an event on a running machine change only the key line: only a key-down ends a wait.
Derived: what a key-down is is the spec's decision D15. -/
def Obligations.OnlyKeyDownEndsWait : Prop :=
  ∀ (s : State) (k : Key) (p : Bool), s.waiting = false ∨ p = false ∨ s.keyDown k = true →
    ∃ t, transact (.setKey k p) s = .next (t, .done) ∧ t = { s with key := t.key } ∧
      t.keyDown k = p ∧ ∀ q, q ≠ k → t.keyDown q = s.keyDown q

/-! ## Register instructions (spec/42_alu.md) -/

/-- `6xnn`: `x[X] <- NN`, and nothing else but `pc` (R103). -/
def Obligations.LoadImmediate : Prop :=
  ∀ (x : Reg) (nn : Byte) (s : State), ∃ t, exec (.ldByte x nn) s = .next t ∧
    t.getV x = nn ∧ t.pc = s.pc + 2 ∧ Keeps (· = x) [] s t

/-- `7xnn`: `x[X] <- (x[X] + NN) mod 256`; `VF` is written only as `x[X]` (R104). -/
def Obligations.AddImmediateWithoutCarry : Prop :=
  ∀ (x : Reg) (nn : Byte) (s : State), ∃ t, exec (.addByte x nn) s = .next t ∧
    (t.getV x).toNat = ((s.getV x).toNat + nn.toNat) % 256 ∧ t.pc = s.pc + 2 ∧ Keeps (· = x) [] s t

/-- `8xy0`: `x[X] <- x[Y]` (R105). -/
def Obligations.CopyRegister : Prop :=
  ∀ (x y : Reg) (s : State), ∃ t, exec (.ldReg x y) s = .next t ∧
    t.getV x = s.getV y ∧ t.pc = s.pc + 2 ∧ Keeps (· = x) [] s t

/-- `8xy1`, `8xy2`, `8xy3`: the bitwise result in `x[X]`; with `QUIRK_LOGIC_VF_RESET`, `VF <- 0` last, and without it
no flag. Derived: the quirk's effect is the spec's decision D20. -/
def Obligations.LogicInstructions : Prop :=
  ∀ (x y : Reg) (s : State) (i : Instr) (f : Bool → Bool → Bool),
    (i, f) ∈ [(Instr.orReg x y, or), (Instr.andReg x y, and), (Instr.xorReg x y, xor)] →
    ∃ t, exec i s = .next t ∧ t.pc = s.pc + 2 ∧
      (s.cfg.quirks.logicVfReset = true → t.getV 15 = 0 ∧ Keeps (fun r => r = x ∨ r = 15) [] s t) ∧
      (s.cfg.quirks.logicVfReset = false → Keeps (· = x) [] s t) ∧
      (s.cfg.quirks.logicVfReset = false ∨ x ≠ 15 →
        ∀ k < 8, (t.getV x).getLsbD k = f ((s.getV x).getLsbD k) ((s.getV y).getLsbD k))

/-- `8xy4`: `x[X] <- (a + b) mod 256`, then `VF <-` the carry, last: with `X = 15` the carry stays (R109). -/
def Obligations.AddRegistersWithCarry : Prop :=
  ∀ (x y : Reg) (s : State), ∃ t, exec (.addReg x y) s = .next t ∧
    t.getV 15 = (if (s.getV x).toNat + (s.getV y).toNat > 255 then 1 else 0) ∧
    (x ≠ 15 → (t.getV x).toNat = ((s.getV x).toNat + (s.getV y).toNat) % 256) ∧
    t.pc = s.pc + 2 ∧ Keeps (fun r => r = x ∨ r = 15) [] s t

/-- `8xy5`: `x[X] <- (a - b) mod 256`, then `VF <- 1` when `a >= b`, else 0, last (R110). -/
def Obligations.SubtractWithNotBorrow : Prop :=
  ∀ (x y : Reg) (s : State), ∃ t, exec (.subReg x y) s = .next t ∧
    t.getV 15 = (if (s.getV x).toNat ≥ (s.getV y).toNat then 1 else 0) ∧
    (x ≠ 15 → (t.getV x).toNat = (256 + (s.getV x).toNat - (s.getV y).toNat) % 256) ∧
    t.pc = s.pc + 2 ∧ Keeps (fun r => r = x ∨ r = 15) [] s t

/-- `8xy7`: `x[X] <- (b - a) mod 256`, then `VF <- 1` when `b >= a`, else 0, last (R112). -/
def Obligations.SubtractReversedWithNotBorrow : Prop :=
  ∀ (x y : Reg) (s : State), ∃ t, exec (.subn x y) s = .next t ∧
    t.getV 15 = (if (s.getV y).toNat ≥ (s.getV x).toNat then 1 else 0) ∧
    (x ≠ 15 → (t.getV x).toNat = (256 + (s.getV y).toNat - (s.getV x).toNat) % 256) ∧
    t.pc = s.pc + 2 ∧ Keeps (fun r => r = x ∨ r = 15) [] s t

/-- `8xy6` and `8xyE`: the value shifted is `x[Y]` under `QUIRK_SHIFT_VY` and `x[X]` without it; the result goes to
`x[X]`, then the bit shifted out to `VF`, last. Derived: under the quirk, where `VF` comes from is the spec's decision
D34. -/
def Obligations.ShiftsByOne : Prop :=
  ∀ (x y : Reg) (s : State),
    let v := if s.cfg.quirks.shiftVy then (s.getV y).toNat else (s.getV x).toNat
    (∃ t, exec (.shr x y) s = .next t ∧ (t.getV 15).toNat = v % 2 ∧ (x ≠ 15 → (t.getV x).toNat = v / 2) ∧
      t.pc = s.pc + 2 ∧ Keeps (fun r => r = x ∨ r = 15) [] s t) ∧
    (∃ t, exec (.shl x y) s = .next t ∧ (t.getV 15).toNat = v / 128 ∧ (x ≠ 15 → (t.getV x).toNat = 2 * v % 256) ∧
      t.pc = s.pc + 2 ∧ Keeps (fun r => r = x ∨ r = 15) [] s t)

/-- `Cxnn`: `x[X] <- rand & NN`, for every random byte; so `NN = 0` gives 0 (R114). What the random input holds
afterwards is a free value, of which nothing is said (log 2). -/
def Obligations.RandomByteMasked : Prop :=
  ∀ (x : Reg) (nn b : Byte) (s : State), ∃ t, exec (.rnd x nn) { s with rand := b } = .next t ∧
    t.getV x = b &&& nn ∧ (nn = 0 → t.getV x = 0) ∧ t.pc = s.pc + 2 ∧ Keeps (· = x) [.rand] s t

/-! ## Control transfer and skips (spec/41_flow.md) -/

/-- `1nnn`: `pc <- NNN`; `Bnnn`: `pc <- (NNN + x[0]) mod 0x10000`, not masked to 12 bits; and nothing else changes
(R95, R101). -/
def Obligations.JumpTargets : Prop :=
  ∀ (nnn : BitVec 12) (s : State),
    (∃ t, exec (.jp nnn) s = .next t ∧ t.pc.toNat = nnn.toNat ∧ Keeps noReg [] s t) ∧
    (∃ t, exec (.jpV0 nnn) s = .next t ∧ t.pc.toNat = (nnn.toNat + (s.getV 0).toNat) % 0x10000 ∧
      Keeps noReg [] s t)

/-- `2nnn`: with `sp < 16`, `stack[sp] <- pc + 2`, `sp <- sp + 1`, `pc <- NNN`, the other entries unchanged; with
`sp = 16` it raises `StackOverflow` and pushes nothing (R96). -/
def Obligations.CallPushesReturnAddress : Prop :=
  ∀ (nnn : BitVec 12) (s : State), ∃ t, exec (.call nnn) s = .next t ∧
    (s.sp.val < 16 → t.sp.val = s.sp.val + 1 ∧ t.pc.toNat = nnn.toNat ∧
      (∀ k, ∀ h : k < 16, t.stack[k] = if k = s.sp.val then s.pc + 2 else s.stack[k]) ∧ Keeps noReg [.stack] s t) ∧
    (s.sp.val = 16 → t.fault.code = some .stackOverflow ∧ t.sp = s.sp ∧ t.stack = s.stack ∧ t.pc = s.pc)

/-- `00EE`: with `sp > 0`, `sp <- sp - 1` and `pc <- stack[sp - 1]`, the vacated entry keeping its value; with `sp = 0`
it raises `StackUnderflow` (R94). -/
def Obligations.ReturnPopsReturnAddress : Prop :=
  ∀ s : State, ∃ t, exec .ret s = .next t ∧
    (∀ h : 0 < s.sp.val, t.sp.val = s.sp.val - 1 ∧ t.pc = s.stack[s.sp.val - 1] ∧ t.stack = s.stack ∧
      Keeps noReg [.stack] s t) ∧
    (s.sp.val = 0 → t.fault.code = some .stackUnderflow)

/-- A return after a call comes back to the word after the call, with the stack as deep as before. Derived: it follows
from R94 and R96 (the source's example V-S3). -/
def Obligations.ReturnUndoesCall : Prop :=
  ∀ (nnn : BitVec 12) (s t : State), s.sp.val < 16 → exec (.call nnn) s = .next t →
    ∃ u, exec .ret t = .next u ∧ u.pc = s.pc + 2 ∧ u.sp = s.sp ∧
      (∀ k, ∀ h : k < 16, k < s.sp.val → u.stack[k] = s.stack[k]) ∧ Keeps noReg [.stack] s u

/-- `3xnn`: skip if `x[X] = NN`; `4xnn`: skip if `x[X] != NN` (R97, R98). -/
def Obligations.SkipOnImmediate : Prop :=
  ∀ (x : Reg) (nn : Byte) (s : State),
    (∃ t, exec (.seByte x nn) s = .next t ∧ Keeps noReg [] s t ∧
      (s.getV x = nn → t.pc = s.pc + 4) ∧ (s.getV x ≠ nn → t.pc = s.pc + 2)) ∧
    (∃ t, exec (.sneByte x nn) s = .next t ∧ Keeps noReg [] s t ∧
      (s.getV x ≠ nn → t.pc = s.pc + 4) ∧ (s.getV x = nn → t.pc = s.pc + 2))

/-- `5xy0`: skip if `x[X] = x[Y]`, always taken with `X = Y`; `9xy0`: skip if `x[X] != x[Y]`, never taken with `X = Y`
(R99, R100). -/
def Obligations.SkipOnRegisters : Prop :=
  ∀ (x y : Reg) (s : State),
    (∃ t, exec (.seReg x y) s = .next t ∧ Keeps noReg [] s t ∧
      (s.getV x = s.getV y → t.pc = s.pc + 4) ∧ (s.getV x ≠ s.getV y → t.pc = s.pc + 2) ∧
      (x = y → t.pc = s.pc + 4)) ∧
    (∃ t, exec (.sneReg x y) s = .next t ∧ Keeps noReg [] s t ∧
      (s.getV x ≠ s.getV y → t.pc = s.pc + 4) ∧ (s.getV x = s.getV y → t.pc = s.pc + 2) ∧
      (x = y → t.pc = s.pc + 2))

/-! ## Index register and memory (spec/43_index_memory.md) -/

/-- `Annn`: `I <- NNN` (R115). -/
def Obligations.LoadIndex : Prop :=
  ∀ (nnn : BitVec 12) (s : State), ∃ t, exec (.ldI nnn) s = .next t ∧
    t.i.toNat = nnn.toNat ∧ t.pc = s.pc + 2 ∧ Keeps noReg [.i] s t

/-- `Fx1E`: `I <- (I + x[X]) mod 0x10000`, never masked to 12 bits; `VF` is the I-overflow flag under `QUIRK_FX1E_VF`
and is not written without it. Derived: the spec's decisions D9 and D19. -/
def Obligations.AddToIndex : Prop :=
  ∀ (x : Reg) (s : State), ∃ t, exec (.addI x) s = .next t ∧
    t.i.toNat = (s.i.toNat + (s.getV x).toNat) % 0x10000 ∧ t.pc = s.pc + 2 ∧
    (s.cfg.quirks.fx1eVf = true → t.getV 15 = (if s.i.toNat + (s.getV x).toNat > 0xFFF then 1 else 0) ∧
      Keeps (· = 15) [.i] s t) ∧
    (s.cfg.quirks.fx1eVf = false → Keeps noReg [.i] s t)

/-- `Fx29`: `I <- FONT_BASE + 5 * x[X]`, `x[X]` not masked; after construction, for a digit, the five bytes there are
its glyph. Derived: that `x[X] > 0xF` is used as it is is the spec's decision D31. -/
def Obligations.PointAtGlyph : Prop :=
  (∀ (x : Reg) (s : State), ∃ t, exec (.ldF x) s = .next t ∧
    t.i.toNat = s.cfg.fontBase.val + 5 * (s.getV x).toNat ∧ t.pc = s.pc + 2 ∧ Keeps noReg [.i] s t) ∧
  (∀ (c : Config) (x : Reg) (d : Fin 16) (k : Fin 5), ∃ t,
    exec (.ldF x) ((State.construct c).setV x (BitVec.ofNat 8 d.val)) = .next t ∧
    t.byteAt (t.i.toNat + k.val) = c.fontGlyphs[5 * d.val + k.val]'(by omega))

/-- `Fx33`: with `I + 2 <= 0xFFF`, the hundreds, tens and ones digits of `x[X]` at `I`, `I + 1`, `I + 2`, every other
byte and `I` unchanged; otherwise `MemoryOutOfRange`, and no byte is written (R118). -/
def Obligations.StoreDecimalDigits : Prop :=
  ∀ (x : Reg) (s : State), ∃ t, exec (.ldB x) s = .next t ∧
    (s.i.toNat + 2 ≤ 0xFFF → t.pc = s.pc + 2 ∧ Keeps noReg [.mem] s t ∧
      (t.byteAt s.i.toNat).toNat = (s.getV x).toNat / 100 ∧
      (t.byteAt (s.i.toNat + 1)).toNat = (s.getV x).toNat / 10 % 10 ∧
      (t.byteAt (s.i.toNat + 2)).toNat = (s.getV x).toNat % 10 ∧
      (∀ a, a < s.i.toNat ∨ s.i.toNat + 3 ≤ a → t.byteAt a = s.byteAt a)) ∧
    (s.i.toNat + 2 > 0xFFF → t.fault.code = some .memoryOutOfRange ∧ ∀ a, t.byteAt a = s.byteAt a)

/-- `Fx55`: with `I + X <= 0xFFF`, `V0`..`VX` at `I`..`I + X`, every other byte unchanged, and `I` unchanged or, under
`QUIRK_LDST_ADVANCE_I`, one past the last byte; otherwise `MemoryOutOfRange`, and no byte is written (R119). -/
def Obligations.StoreRegisterRange : Prop :=
  ∀ (x : Reg) (s : State), ∃ t, exec (.storeRegs x) s = .next t ∧
    (s.i.toNat + x.val ≤ 0xFFF → t.pc = s.pc + 2 ∧ Keeps noReg [.mem, .i] s t ∧
      (∀ k : Reg, k ≤ x → t.byteAt (s.i.toNat + k.val) = s.getV k) ∧
      (∀ a, a < s.i.toNat ∨ s.i.toNat + x.val + 1 ≤ a → t.byteAt a = s.byteAt a) ∧
      t.i.toNat = (if s.cfg.quirks.ldstAdvanceI then (s.i.toNat + x.val + 1) % 0x10000 else s.i.toNat)) ∧
    (s.i.toNat + x.val > 0xFFF → t.fault.code = some .memoryOutOfRange ∧ ∀ a, t.byteAt a = s.byteAt a)

/-- `Fx65`: with `I + X <= 0xFFF`, `V0`..`VX` from `I`..`I + X`, the registers above `VX` and memory unchanged, and `I`
unchanged or, under `QUIRK_LDST_ADVANCE_I`, one past the last byte; otherwise `MemoryOutOfRange`, and no register is
written (R120). -/
def Obligations.LoadRegisterRange : Prop :=
  ∀ (x : Reg) (s : State), ∃ t, exec (.loadRegs x) s = .next t ∧
    (s.i.toNat + x.val ≤ 0xFFF → t.pc = s.pc + 2 ∧ Keeps (· ≤ x) [.i] s t ∧
      (∀ k : Reg, k ≤ x → t.getV k = s.byteAt (s.i.toNat + k.val)) ∧
      t.i.toNat = (if s.cfg.quirks.ldstAdvanceI then (s.i.toNat + x.val + 1) % 0x10000 else s.i.toNat)) ∧
    (s.i.toNat + x.val > 0xFFF → t.fault.code = some .memoryOutOfRange ∧ ∀ r, t.getV r = s.getV r)

/-- A store is seen by the very next fetch of its address: after `Fx55`, `Fx33` or `load`, the next step executes the
word that lies at its `pc` with the stored bytes in it, whichever of its two bytes they are. Derived: the spec's
decision D27. -/
def Obligations.StoreIsSeenByNextFetch : Prop :=
  ∀ (s : State) (i : Instr), s.running →
    (s.pc.toNat + 3 ≤ 0xFFF →
      (∀ x : Reg, s.i.toNat + x.val ≤ 0xFFF →
        let m := overlay s s.i.toNat (x.val + 1) (fun k => s.getV (Fin.ofNat 16 k))
        decode (wordOfBytes (m (s.pc.toNat + 2)) (m (s.pc.toNat + 3))) = some i →
        ∃ t, exec (.storeRegs x) s = .next t ∧ step t = exec i t) ∧
      (∀ x : Reg, s.i.toNat + 2 ≤ 0xFFF →
        let v := (s.getV x).toNat
        let m := overlay s s.i.toNat 3 (fun k => BitVec.ofNat 8 ([v / 100, v / 10 % 10, v % 10].getD k 0))
        decode (wordOfBytes (m (s.pc.toNat + 2)) (m (s.pc.toNat + 3))) = some i →
        ∃ t, exec (.ldB x) s = .next t ∧ step t = exec i t)) ∧
    (s.pc.toNat + 1 ≤ 0xFFF → ∀ bs : List Byte, bs.length ≤ 0xE00 →
      let m := overlay s 0x200 bs.length (fun k => bs.getD k 0)
      decode (wordOfBytes (m s.pc.toNat) (m (s.pc.toNat + 1))) = some i →
      ∃ t, transact (.load bs) s = .next (t, .ok) ∧ step t = exec i t)

/-! ## Display (spec/44_display.md) -/

/-- `00E0`: all 2048 cells 0, `VF` not written (R121). -/
def Obligations.ClearScreen : Prop :=
  ∀ s : State, ∃ t, exec .cls s = .next t ∧ (∀ px py, Framebuffer.cell t.fb px py = false) ∧
    t.pc = s.pc + 2 ∧ Keeps noReg [.fb] s t

/-- `Dxyn`, when its sprite bytes lie in memory or `N = 0`: exactly the covered cells are inverted, and `VF` is 1 when
one of them was on, else 0. Derived: the bit order of a sprite byte is the spec's decision D21, and `VF <- 0` without a
collision its inference from R26. -/
def Obligations.DrawInvertsCoveredCells : Prop :=
  ∀ (x y : Reg) (n : Nat) (s : State), n ≤ 15 → n = 0 ∨ s.i.toNat + n - 1 ≤ 0xFFF →
    ∃ t, exec (.drw x y n) s = .next t ∧ t.pc = s.pc + 2 ∧ Keeps (· = 15) [.fb] s t ∧
      (∀ px py, (spriteCovers s x y n px py → Framebuffer.cell t.fb px py = !Framebuffer.cell s.fb px py) ∧
        (¬ spriteCovers s x y n px py → Framebuffer.cell t.fb px py = Framebuffer.cell s.fb px py)) ∧
      ((∃ px py, spriteCovers s x y n px py ∧ Framebuffer.cell s.fb px py = true) → t.getV 15 = 1) ∧
      ((∀ px py, spriteCovers s x y n px py → Framebuffer.cell s.fb px py = false) → t.getV 15 = 0)

/-- Drawing the same sprite twice at the same place gives the screen back, and after the second draw `VF = 1` exactly
when some covered cell was off before the first, so that the second turned it off: on a clear screen, when the sprite
has a set bit (the source's example V-S2). Derived: it follows from R122. The registers that give the place are not
`VF`, which the first draw writes. -/
def Obligations.DrawTwiceRestoresScreen : Prop :=
  ∀ (x y : Reg) (n : Nat) (s t : State), n ≤ 15 → n = 0 ∨ s.i.toNat + n - 1 ≤ 0xFFF → x ≠ 15 → y ≠ 15 →
    exec (.drw x y n) s = .next t →
    ∃ u, exec (.drw x y n) t = .next u ∧ u.fb = s.fb ∧
      (u.getV 15 = 1 ↔ ∃ px py, spriteCovers s x y n px py ∧ Framebuffer.cell s.fb px py = false)

/-! ## Keypad and timers (spec/45_keypad_timer.md) -/

/-- `Ex9E` and `ExA1`: the key is `x[X]`, or `x[X] mod 16` under `mask_low_nibble`; `Ex9E` skips if it is pressed and
`ExA1` if it is not; above 15 under the policy `fault` both raise `KeyIndexOutOfRange`. Derived: `KEY_INDEX_POLICY` is
the spec's decision D17. -/
def Obligations.KeySkips : Prop :=
  ∀ (x : Reg) (s : State),
    ((s.getV x).toNat ≤ 15 ∨ s.cfg.keyIndexPolicy = .maskLowNibble →
      ∀ k : Key, k.val = (s.getV x).toNat % 16 →
        (∃ t, exec (.skp x) s = .next t ∧ Keeps noReg [] s t ∧
          t.pc = if s.keyDown k then s.pc + 4 else s.pc + 2) ∧
        (∃ t, exec (.sknp x) s = .next t ∧ Keeps noReg [] s t ∧
          t.pc = if s.keyDown k then s.pc + 2 else s.pc + 4)) ∧
    ((s.getV x).toNat > 15 → s.cfg.keyIndexPolicy = .fault →
      (∃ t, exec (.skp x) s = .next t ∧ t.fault.code = some .keyIndexOutOfRange) ∧
      (∃ t, exec (.sknp x) s = .next t ∧ t.fault.code = some .keyIndexOutOfRange))

/-- `Fx07`: `x[X] <- DT` (R126). -/
def Obligations.ReadDelayTimer : Prop :=
  ∀ (x : Reg) (s : State), ∃ t, exec (.ldVxDt x) s = .next t ∧
    t.getV x = s.dt ∧ t.pc = s.pc + 2 ∧ Keeps (· = x) [] s t

/-- `Fx15`: `DT <- x[X]` (R128). -/
def Obligations.WriteDelayTimer : Prop :=
  ∀ (x : Reg) (s : State), ∃ t, exec (.ldDtVx x) s = .next t ∧
    t.dt = s.getV x ∧ t.pc = s.pc + 2 ∧ Keeps noReg [.dt] s t

/-- `Fx18`: `ST <- x[X]` (R129), which the `sound_timer` port then shows. -/
def Obligations.WriteSoundTimer : Prop :=
  ∀ (x : Reg) (s : State), ∃ t, exec (.ldStVx x) s = .next t ∧
    t.st = s.getV x ∧ t.soundTimerPort = s.getV x ∧ t.pc = s.pc + 2 ∧ Keeps noReg [.st] s t

/-- `Fx0A`: the machine waits for a key with target `X`, `pc` unchanged, and every further step changes nothing.
Derived: the step of a waiting machine is the spec's decision D16. -/
def Obligations.WaitForKey : Prop :=
  ∀ (x : Reg) (s : State), ∃ t, exec (.ldVxK x) s = .next t ∧
    t.ws = .awaitingKey x ∧ t.waiting = true ∧ t.waitTarget = x ∧ t.pc = s.pc ∧ Keeps noReg [.ws] s t ∧
    step t = .next t

/-! ## The whole machine -/

/-- The ports show the state: `waiting`, the 2048 bits of `framebuffer` in row-major order, `sound_timer`, the
`snapshot`, and of the latch its numeric code (0 when not halted, 1 to 5 for the five faults), its address, its word and
whether the word is valid. Derived: the codes and the fields of the latch are the spec's decisions D13 and D17. -/
def Obligations.PortsShowTheState : Prop :=
  ∀ s : State,
    (s.waitingPort = true ↔ ∃ x, s.ws = .awaitingKey x) ∧
    (∀ (px : Fin 64) (py : Fin 32),
      s.framebufferPort.getLsbD (64 * py.val + px.val) = Framebuffer.cell s.fb px py) ∧
    s.soundTimerPort = s.st ∧ s.snapshotPort = s ∧
    s.faultPort.1 = faultCode s.fault.code ∧ (s.faultPort.1 = 0 ↔ s.halted = false) ∧
    s.faultPort.2 = (s.fault.addr, s.fault.word, if s.fault.wordValid then 1 else 0)

/-- Equal memories are equal data: two canonical memories that read alike at every address are the same list. Derived:
the canonical form is the model's own (log 4). -/
def Obligations.CanonicalMemoryIsUnique : Prop :=
  ∀ (c : Config) (m n : Memory), Memory.wf c m → Memory.wf c n →
    (∀ a, Memory.read c m a = Memory.read c n a) → m = n

/-- The machine after construction meets the invariant, whatever its parameters, and so does the reset state. Derived:
the canonical form of memory, its first clause, is the model's own (log 4); that `State.reset` is the machine after
construction is log 7. -/
def Obligations.InvariantAfterConstruction : Prop :=
  (∀ c : Config, MachineInv (State.construct c)) ∧ MachineInv State.reset

/-- From every state that meets the invariant, a step gives a state that meets it. Derived: the canonical form of
memory is the model's own (log 4; R53 gives the 4096 bytes and their addresses); the other clauses join R82, R127, R130,
R136, R137 and R149, with the latch's word as log 5 has it. -/
def Obligations.StepKeepsInvariant : Prop :=
  ∀ s t : State, MachineInv s → step s = .next t → MachineInv t

/-- Every finite sequence of transactions, from every state that meets the invariant, runs to its end and gives a
state that meets it; every infinite one runs for ever, and each of its states meets the invariant and is the state
after its first `n` transactions (R8, R9). Derived: it joins the clauses of `StepKeepsInvariant`, with the model's own
canonical form of memory (log 4), and R143, R146, R157 and R158; that the host's transactions come in as a list or an
infinite sequence beside the bare step is log 15. -/
def Obligations.TransactionsKeepInvariant : Prop :=
  ∀ s : State, MachineInv s →
    (∀ ts : List Transaction, ∃ t, transactAll ts s = .next t ∧ MachineInv t) ∧
    (∀ (ts : Nat → Transaction) (n : Nat), ∃ t, runAt ts s n = .next t ∧ MachineInv t ∧
      transactAll ((List.range n).map ts) s = .next t)
end

