-- ==== Sys2Proof/Laws/Decode.lean ====
section
/-! SUPPORT. Decoding by disjoint rows, and the fields of an encoded word. -/

namespace Sys2Proof

/-! ### Disjoint rows (R72) -/

/-- Two rows fix some bit differently. -/
def OpRow.disjoint (r q : OpRow) : Bool := (r.pat ^^^ q.pat) &&& r.mask &&& q.mask != 0

/-- No word selects two disjoint rows. -/
theorem OpRow.not_both {r q : OpRow} {w : Word} (hd : r.disjoint q = true) (hr : r.selects w = true) :
    q.selects w = false := by
  rw [Bool.eq_false_iff]
  intro hq
  simp only [OpRow.selects, beq_iff_eq] at hr hq
  simp only [OpRow.disjoint, bne_iff_ne, ne_eq] at hd
  apply hd
  rw [← hr, ← hq]
  apply BitVec.eq_of_getLsbD_eq
  intro k hk
  have hz : (0 : Word).getLsbD k = false := BitVec.getLsbD_zero
  simp only [BitVec.getLsbD_and, BitVec.getLsbD_xor, hz]
  cases w.getLsbD k <;> cases r.mask.getLsbD k <;> cases q.mask.getLsbD k <;> rfl

/-- The rows of Table O1 are pairwise disjoint (R72). -/
theorem opTable_pairwise : opTable.Pairwise (fun r q => r.disjoint q = true) := by decide

/-- In pairwise disjoint rows, the row a word selects is the one found. -/
theorem find?_of_selects {l : List OpRow} {w : Word} (hp : l.Pairwise (fun r q => r.disjoint q = true)) {r : OpRow}
    (hr : r ∈ l) (hs : r.selects w = true) : l.find? (·.selects w) = some r := by
  induction l with
  | nil => cases hr
  | cons q l ih =>
    obtain ⟨hq, hl⟩ := List.pairwise_cons.1 hp
    rcases List.mem_cons.1 hr with rfl | hr
    · simp [hs]
    · have : q.selects w = false := by
        rw [Bool.eq_false_iff]
        intro h
        have := OpRow.not_both (hq r hr) h
        simp [hs] at this
      simp [this, ih hl hr]

/-- A word that selects row `k` of Table O1 decodes by that row. -/
theorem decode_of_index (k : Nat) (hk : k < opTable.length) {w : Word} (hs : (opTable[k]).selects w = true) :
    decode w = some ((opTable[k]).build w) := by
  simp [decode, find?_of_selects opTable_pairwise (List.getElem_mem hk) hs]

/-- What decodes does so by a row that the word selects. -/
theorem decode_eq_some {w : Word} {i : Instr} (h : decode w = some i) :
    ∃ r ∈ opTable, r.selects w = true ∧ i = r.build w := by
  unfold decode at h
  cases hf : opTable.find? (·.selects w) with
  | none => simp [hf] at h
  | some r =>
    rw [hf] at h
    have hsel := List.find?_some hf
    exact ⟨r, List.mem_of_find?_eq_some hf, hsel, (Option.some.inj h).symm⟩

/-- A word is illegal exactly when it selects no row (R74). -/
theorem decode_eq_none {w : Word} : decode w = none ↔ ∀ r ∈ opTable, r.selects w = false := by
  simp [decode]

/-! ### Bytes of a word (R56) -/

theorem getLsbD_wordOfBytes (a b : Byte) (k : Nat) :
    (wordOfBytes a b).getLsbD k = if k < 8 then b.getLsbD k else a.getLsbD (k - 8) :=
  BitVec.getLsbD_append

@[simp] theorem wordOfBytes_highByte_lowByte (w : Word) : wordOfBytes (highByte w) (lowByte w) = w := by
  apply BitVec.eq_of_getLsbD_eq
  intro k hk
  simp only [getLsbD_wordOfBytes, highByte, lowByte, BitVec.getLsbD_extractLsb']
  by_cases h : k < 8
  · simp [h]
  · have h1 : k - 8 < 8 := by omega
    have h2 : 8 + (k - 8) = k := by omega
    simp [h, h1, h2]

@[simp] theorem highByte_wordOfBytes (a b : Byte) : highByte (wordOfBytes a b) = a := by
  apply BitVec.eq_of_getLsbD_eq
  intro k hk
  simp [highByte, getLsbD_wordOfBytes, hk]

@[simp] theorem lowByte_wordOfBytes (a b : Byte) : lowByte (wordOfBytes a b) = b := by
  apply BitVec.eq_of_getLsbD_eq
  intro k hk
  simp [lowByte, getLsbD_wordOfBytes, hk]

/-! ### Fields and fixed bits of an encoded word (R67, R69) -/

theorem getLsbD_encodeAddr (c : BitVec 4) (nnn : BitVec 12) (k : Nat) :
    (encodeAddr c nnn).getLsbD k = if k < 12 then nnn.getLsbD k else c.getLsbD (k - 12) :=
  BitVec.getLsbD_append

theorem getLsbD_encodeRegByte (c : BitVec 4) (x : Reg) (nn : Byte) (k : Nat) :
    (encodeRegByte c x nn).getLsbD k =
      if k < 8 then nn.getLsbD k
      else if k - 8 < 4 then (regBits x).getLsbD (k - 8) else c.getLsbD (k - 8 - 4) :=
  (BitVec.getLsbD_append (x := c ++ regBits x) (y := nn)).trans (by rw [BitVec.getLsbD_append])

theorem getLsbD_encodeRegReg (c : BitVec 4) (x y : Reg) (n : BitVec 4) (k : Nat) :
    (encodeRegReg c x y n).getLsbD k =
      if k < 4 then n.getLsbD k
      else if k - 4 < 4 then (regBits y).getLsbD (k - 4)
      else if k - 4 - 4 < 4 then (regBits x).getLsbD (k - 4 - 4) else c.getLsbD (k - 4 - 4 - 4) :=
  (BitVec.getLsbD_append (x := c ++ regBits x ++ regBits y) (y := n)).trans
    (by rw [BitVec.getLsbD_append, BitVec.getLsbD_append])

@[simp] theorem fieldNNN_encodeAddr (c : BitVec 4) (nnn : BitVec 12) : fieldNNN (encodeAddr c nnn) = nnn := by
  apply BitVec.eq_of_getLsbD_eq
  intro k hk
  simp [fieldNNN, getLsbD_encodeAddr, hk]

@[simp] theorem fieldNN_encodeRegByte (c : BitVec 4) (x : Reg) (nn : Byte) : fieldNN (encodeRegByte c x nn) = nn := by
  apply BitVec.eq_of_getLsbD_eq
  intro k hk
  simp [fieldNN, getLsbD_encodeRegByte, hk]

theorem fieldX_eq {w : Word} {x : Reg} (h : w.extractLsb' 8 4 = regBits x) : fieldX w = x := by
  unfold fieldX; rw [h]; rfl

theorem fieldY_eq {w : Word} {y : Reg} (h : w.extractLsb' 4 4 = regBits y) : fieldY w = y := by
  unfold fieldY; rw [h]; rfl

@[simp] theorem fieldX_encodeRegByte (c : BitVec 4) (x : Reg) (nn : Byte) : fieldX (encodeRegByte c x nn) = x := by
  apply fieldX_eq
  apply BitVec.eq_of_getLsbD_eq
  intro k hk
  simp [getLsbD_encodeRegByte, hk]

@[simp] theorem fieldX_encodeRegReg (c : BitVec 4) (x y : Reg) (n : BitVec 4) :
    fieldX (encodeRegReg c x y n) = x := by
  apply fieldX_eq
  apply BitVec.eq_of_getLsbD_eq
  intro k hk
  have h1 : ¬ 8 + k < 4 := by omega
  have h2 : ¬ 8 + k - 4 < 4 := by omega
  have h3 : 8 + k - 4 - 4 = k := by omega
  simp [getLsbD_encodeRegReg, hk, h1, h2, h3]

@[simp] theorem fieldY_encodeRegReg (c : BitVec 4) (x y : Reg) (n : BitVec 4) :
    fieldY (encodeRegReg c x y n) = y := by
  apply fieldY_eq
  apply BitVec.eq_of_getLsbD_eq
  intro k hk
  simp [getLsbD_encodeRegReg, hk]

@[simp] theorem fieldN_encodeRegReg (c : BitVec 4) (x y : Reg) (n : BitVec 4) :
    fieldN (encodeRegReg c x y n) = n.toNat := by
  have : (encodeRegReg c x y n).extractLsb' 0 4 = n := by
    apply BitVec.eq_of_getLsbD_eq
    intro k hk
    simp [getLsbD_encodeRegReg, hk]
  simp only [fieldN, this]

/-- Masking an `addr` word masks its fields. -/
theorem encodeAddr_and (c m : BitVec 4) (nnn k : BitVec 12) :
    encodeAddr c nnn &&& (m ++ k : BitVec 16) = ((c &&& m) ++ (nnn &&& k) : BitVec 16) :=
  BitVec.and_append

/-- Masking a `reg_byte` word masks its fields. -/
theorem encodeRegByte_and (c m1 m2 : BitVec 4) (x : Reg) (nn m3 : Byte) :
    encodeRegByte c x nn &&& (m1 ++ m2 ++ m3 : BitVec 16) =
      ((c &&& m1) ++ (regBits x &&& m2) ++ (nn &&& m3) : BitVec 16) :=
  (BitVec.and_append (x₁ := c ++ regBits x) (x₂ := m1 ++ m2)).trans (by rw [BitVec.and_append])

/-- Masking a `reg_reg` word masks its fields. -/
theorem encodeRegReg_and (c m1 m2 m3 m4 n : BitVec 4) (x y : Reg) :
    encodeRegReg c x y n &&& (m1 ++ m2 ++ m3 ++ m4 : BitVec 16) =
      ((c &&& m1) ++ (regBits x &&& m2) ++ (regBits y &&& m3) ++ (n &&& m4) : BitVec 16) :=
  (BitVec.and_append (x₁ := c ++ regBits x ++ regBits y) (x₂ := m1 ++ m2 ++ m3)).trans
    (by rw [BitVec.and_append, BitVec.and_append])

/-- The fixed bits of shape `addr` (R69 Table F2). -/
theorem encodeAddr_fixed (c : BitVec 4) (nnn : BitVec 12) :
    encodeAddr c nnn &&& 0xF000 = (c ++ 0#12 : BitVec 16) := by
  have h := encodeAddr_and c (BitVec.allOnes 4) nnn 0#12
  rw [BitVec.and_allOnes, BitVec.and_zero] at h
  exact h

/-- The fixed bits of shape `reg_byte`. -/
theorem encodeRegByte_fixed (c : BitVec 4) (x : Reg) (nn : Byte) :
    encodeRegByte c x nn &&& 0xF000 = (c ++ 0#4 ++ 0#8 : BitVec 16) := by
  have h := encodeRegByte_and c (BitVec.allOnes 4) 0#4 x nn 0#8
  rw [BitVec.and_allOnes, BitVec.and_zero, BitVec.and_zero] at h
  exact h

/-- The fixed bits of shape `reg`: the low byte is fixed too. -/
theorem encodeReg_fixed (c : BitVec 4) (x : Reg) (nn : Byte) :
    encodeRegByte c x nn &&& 0xF0FF = (c ++ 0#4 ++ nn : BitVec 16) := by
  have h := encodeRegByte_and c (BitVec.allOnes 4) 0#4 x nn (BitVec.allOnes 8)
  rw [BitVec.and_allOnes, BitVec.and_zero, BitVec.and_allOnes] at h
  exact h

/-- The fixed bits of shape `reg_reg`: the low nibble is fixed too. -/
theorem encodeRegReg_fixed (c : BitVec 4) (x y : Reg) (n : BitVec 4) :
    encodeRegReg c x y n &&& 0xF00F = (c ++ 0#4 ++ 0#4 ++ n : BitVec 16) := by
  have h := encodeRegReg_and c (BitVec.allOnes 4) 0#4 0#4 (BitVec.allOnes 4) n x y
  rw [BitVec.and_allOnes, BitVec.and_zero, BitVec.and_zero, BitVec.and_allOnes] at h
  exact h

/-- The fixed bits of shape `reg_reg_nib`. -/
theorem encodeRegRegNib_fixed (c : BitVec 4) (x y : Reg) (n : BitVec 4) :
    encodeRegReg c x y n &&& 0xF000 = (c ++ 0#4 ++ 0#4 ++ 0#4 : BitVec 16) := by
  have h := encodeRegReg_and c (BitVec.allOnes 4) 0#4 0#4 0#4 n x y
  rw [BitVec.and_allOnes, BitVec.and_zero, BitVec.and_zero, BitVec.and_zero] at h
  exact h

/-! ### Selecting a row, by shape -/

theorem selects_addr {r : OpRow} {c : BitVec 4} (nnn : BitVec 12) (hm : r.mask = 0xF000)
    (hp : r.pat = (c ++ 0#12 : BitVec 16)) : r.selects (encodeAddr c nnn) = true := by
  simp only [OpRow.selects, hm, hp, encodeAddr_fixed, beq_self_eq_true]

theorem selects_regByte {r : OpRow} {c : BitVec 4} (x : Reg) (nn : Byte) (hm : r.mask = 0xF000)
    (hp : r.pat = (c ++ 0#4 ++ 0#8 : BitVec 16)) : r.selects (encodeRegByte c x nn) = true := by
  simp only [OpRow.selects, hm, hp, encodeRegByte_fixed, beq_self_eq_true]

theorem selects_reg {r : OpRow} {c : BitVec 4} {nn : Byte} (x : Reg) (hm : r.mask = 0xF0FF)
    (hp : r.pat = (c ++ 0#4 ++ nn : BitVec 16)) : r.selects (encodeRegByte c x nn) = true := by
  simp only [OpRow.selects, hm, hp, encodeReg_fixed, beq_self_eq_true]

theorem selects_regReg {r : OpRow} {c n : BitVec 4} (x y : Reg) (hm : r.mask = 0xF00F)
    (hp : r.pat = (c ++ 0#4 ++ 0#4 ++ n : BitVec 16)) : r.selects (encodeRegReg c x y n) = true := by
  simp only [OpRow.selects, hm, hp, encodeRegReg_fixed, beq_self_eq_true]

theorem selects_regRegNib {r : OpRow} {c : BitVec 4} (x y : Reg) (n : BitVec 4) (hm : r.mask = 0xF000)
    (hp : r.pat = (c ++ 0#4 ++ 0#4 ++ 0#4 : BitVec 16)) : r.selects (encodeRegReg c x y n) = true := by
  simp only [OpRow.selects, hm, hp, encodeRegRegNib_fixed, beq_self_eq_true]

/-! ### A word is its row's fixed bits and its fields -/

theorem regBits_fieldX (w : Word) : regBits (fieldX w) = w.extractLsb' 8 4 := rfl

theorem regBits_fieldY (w : Word) : regBits (fieldY w) = w.extractLsb' 4 4 := rfl

theorem ofNat_fieldN (w : Word) : BitVec.ofNat 4 (fieldN w) = w.extractLsb' 0 4 := BitVec.ofNat_toNat _ _ |>.trans (by simp)

theorem fieldN_le (w : Word) : fieldN w ≤ 15 := by
  have := (w.extractLsb' 0 4).isLt
  unfold fieldN
  omega

theorem encodeAddr_fields {w : Word} {c : BitVec 4} (h : w &&& 0xF000 = encodeAddr c 0) :
    encodeAddr c (fieldNNN w) = w := by
  apply BitVec.eq_of_getLsbD_eq
  intro k hk
  have hb := congrArg (fun v => BitVec.getLsbD v k) h
  simp only [BitVec.getLsbD_and, getLsbD_encodeAddr] at hb
  rw [getLsbD_encodeAddr]
  interval_cases k <;> simp_all [fieldNNN]

theorem encodeRegByte_fields {w : Word} {c : BitVec 4} (h : w &&& 0xF000 = encodeAddr c 0) :
    encodeRegByte c (fieldX w) (fieldNN w) = w := by
  apply BitVec.eq_of_getLsbD_eq
  intro k hk
  have hb := congrArg (fun v => BitVec.getLsbD v k) h
  simp only [BitVec.getLsbD_and, getLsbD_encodeAddr] at hb
  rw [getLsbD_encodeRegByte]
  interval_cases k <;> simp_all [fieldNN, regBits_fieldX]

theorem encodeRegRegNib_fields {w : Word} {c : BitVec 4} (h : w &&& 0xF000 = encodeAddr c 0) :
    encodeRegReg c (fieldX w) (fieldY w) (BitVec.ofNat 4 (fieldN w)) = w := by
  apply BitVec.eq_of_getLsbD_eq
  intro k hk
  have hb := congrArg (fun v => BitVec.getLsbD v k) h
  simp only [BitVec.getLsbD_and, getLsbD_encodeAddr] at hb
  rw [getLsbD_encodeRegReg, ofNat_fieldN]
  interval_cases k <;> simp_all [regBits_fieldX, regBits_fieldY]

theorem encodeRegReg_fields {w : Word} {c n : BitVec 4} (h : w &&& 0xF00F = encodeRegReg c 0 0 n) :
    encodeRegReg c (fieldX w) (fieldY w) n = w := by
  apply BitVec.eq_of_getLsbD_eq
  intro k hk
  have hb := congrArg (fun v => BitVec.getLsbD v k) h
  simp only [BitVec.getLsbD_and, getLsbD_encodeRegReg] at hb
  rw [getLsbD_encodeRegReg]
  interval_cases k <;> simp_all [regBits_fieldX, regBits_fieldY]

theorem encodeReg_fields {w : Word} {c : BitVec 4} {nn : Byte} (h : w &&& 0xF0FF = encodeRegByte c 0 nn) :
    encodeRegByte c (fieldX w) nn = w := by
  apply BitVec.eq_of_getLsbD_eq
  intro k hk
  have hb := congrArg (fun v => BitVec.getLsbD v k) h
  simp only [BitVec.getLsbD_and, getLsbD_encodeRegByte] at hb
  rw [getLsbD_encodeRegByte]
  interval_cases k <;> simp_all [regBits_fieldX]

end Sys2Proof
end

