-- ==== Sys2Proof/Laws/Memory.lean ====
section
/-! SUPPORT. The laws of the memory list: what a read gives after a write, and that every operation keeps the canonical
form. -/

namespace Sys2Proof.Machine
namespace Memory

variable (cfg : Config)

theorem read_insert (a : Nat) (v : Byte) (m : Memory) (b : Nat) :
    read cfg (insert a v m) b = if b = a then v else read cfg m b := by
  induction m with
  | nil => simp [insert, read]
  | cons c m ih =>
    obtain ⟨k, u⟩ := c
    simp only [insert]
    split
    · simp only [read]
    · split
      · subst_vars
        simp only [read]
        split <;> rfl
      · simp only [read, ih]
        by_cases hb : b = a
        · have : ¬ b = k := by omega
          simp [hb]; omega
        · simp [hb]

theorem read_erase (a : Nat) (m : Memory) (b : Nat) :
    read cfg (erase a m) b = if b = a then background cfg a else read cfg m b := by
  induction m with
  | nil => by_cases h : b = a <;> simp [erase, read, h]
  | cons c m ih =>
    obtain ⟨k, u⟩ := c
    by_cases hk : k = a
    · subst hk
      have : erase k ((k, u) :: m) = erase k m := by simp [erase]
      rw [this, ih]
      by_cases hb : b = k <;> simp [read, hb]
    · have : erase a ((k, u) :: m) = (k, u) :: erase a m := by simp [erase, hk]
      rw [this]
      simp only [read, ih]
      by_cases hb : b = k
      · subst hb; simp [hk]
      · simp [hb]

/-- A byte read after a write: the byte written there, and every other address as before. -/
theorem read_write (m : Memory) (a : Nat) (v : Byte) (b : Nat) :
    read cfg (write cfg m a v) b = if b = a then v else read cfg m b := by
  unfold write
  split
  · rename_i h; rw [read_erase, h]
  · exact read_insert cfg a v m b

theorem mem_insert {a : Nat} {v : Byte} {m : Memory} {c : Host.Cell} (h : c ∈ insert a v m) :
    c = (a, v) ∨ c ∈ m := by
  induction m with
  | nil => simpa [insert] using h
  | cons d m ih =>
    obtain ⟨k, u⟩ := d
    simp only [insert] at h
    split at h
    · simpa using h
    · split at h
      · rcases List.mem_cons.1 h with h | h
        · exact .inl h
        · exact .inr (List.mem_cons_of_mem _ h)
      · rcases List.mem_cons.1 h with h | h
        · exact .inr (h ▸ List.mem_cons_self)
        · exact (ih h).imp id (List.mem_cons_of_mem _)

theorem pairwise_insert {m : Memory} (a : Nat) (v : Byte) (h : m.Pairwise (fun c d => c.1 < d.1)) :
    (insert a v m).Pairwise (fun c d => c.1 < d.1) := by
  induction m with
  | nil => simp [insert]
  | cons d m ih =>
    obtain ⟨k, u⟩ := d
    obtain ⟨hk, hm⟩ := List.pairwise_cons.1 h
    simp only [insert]
    split
    · rename_i hlt
      refine List.pairwise_cons.2 ⟨fun c hc => ?_, h⟩
      rcases List.mem_cons.1 hc with rfl | hc
      · exact hlt
      · exact Nat.lt_trans hlt (hk c hc)
    · split
      · rename_i he
        subst he
        exact List.pairwise_cons.2 ⟨hk, hm⟩
      · refine List.pairwise_cons.2 ⟨fun c hc => ?_, ih hm⟩
        rcases mem_insert hc with rfl | hc
        · show k < a
          omega
        · exact hk c hc

/-- Nothing listed is canonical. -/
theorem wf_nil : wf cfg [] := by simp [wf]

/-- A filtered memory keeps the canonical form. -/
theorem wf_filter {m : Memory} (p : Host.Cell → Bool) (h : wf cfg m) : wf cfg (m.filter p) :=
  ⟨h.1.filter p, fun c hc => h.2 c (List.mem_filter.1 hc).1⟩

/-- A write inside 0x000..0xFFF keeps the canonical form. -/
theorem wf_write {m : Memory} {a : Nat} (v : Byte) (ha : a < 0x1000) (h : wf cfg m) : wf cfg (write cfg m a v) := by
  unfold write
  split
  · exact wf_filter cfg _ h
  · rename_i hv
    refine ⟨pairwise_insert a v h.1, fun c hc => ?_⟩
    rcases mem_insert hc with rfl | hc
    · exact ⟨ha, hv⟩
    · exact h.2 c hc

/-- The restored reserved region keeps the canonical form. -/
theorem wf_restoreReserved {m : Memory} (h : wf cfg m) : wf cfg (restoreReserved m) := wf_filter cfg _ h

/-- After the reserved region is restored: below 0x200 the construction value, from 0x200 up as before (R157). -/
theorem read_restoreReserved (m : Memory) (a : Nat) :
    read cfg (restoreReserved m) a = if a < 0x200 then background cfg a else read cfg m a := by
  induction m with
  | nil => simp [restoreReserved, read]
  | cons c m ih =>
    obtain ⟨k, u⟩ := c
    by_cases hk : 0x200 ≤ k
    · have : restoreReserved ((k, u) :: m) = (k, u) :: restoreReserved m := by simp [restoreReserved, hk]
      rw [this]
      simp only [read, ih]
      by_cases ha : a = k
      · have : ¬ a < 0x200 := by omega
        simp [ha]; omega
      · simp [ha]
    · have : restoreReserved ((k, u) :: m) = restoreReserved m := by simp [restoreReserved, hk]
      rw [this, ih]
      by_cases ha : a = k
      · have : a < 0x200 := by omega
        simp [this]
      · simp [read, ha]

end Memory
end Sys2Proof.Machine
end

