-- ==== Sys2Proof/Laws/State.lean ====
section
/-! SUPPORT. What each update of the state leaves in each field: one lemma per field per update, so that no later proof
unfolds a record update. -/

namespace Sys2Proof.Machine
namespace State

variable (s : State)

/-! ### `setV` -/

@[simp] theorem setV_cfg (r : Reg) (b : Byte) : (s.setV r b).cfg = s.cfg := rfl
@[simp] theorem setV_v (r : Reg) (b : Byte) : (s.setV r b).v = s.v.set r.val b r.isLt := rfl
@[simp] theorem setV_i (r : Reg) (b : Byte) : (s.setV r b).i = s.i := rfl
@[simp] theorem setV_pc (r : Reg) (b : Byte) : (s.setV r b).pc = s.pc := rfl
@[simp] theorem setV_sp (r : Reg) (b : Byte) : (s.setV r b).sp = s.sp := rfl
@[simp] theorem setV_stack (r : Reg) (b : Byte) : (s.setV r b).stack = s.stack := rfl
@[simp] theorem setV_dt (r : Reg) (b : Byte) : (s.setV r b).dt = s.dt := rfl
@[simp] theorem setV_st (r : Reg) (b : Byte) : (s.setV r b).st = s.st := rfl
@[simp] theorem setV_fb (r : Reg) (b : Byte) : (s.setV r b).fb = s.fb := rfl
@[simp] theorem setV_key (r : Reg) (b : Byte) : (s.setV r b).key = s.key := rfl
@[simp] theorem setV_ws (r : Reg) (b : Byte) : (s.setV r b).ws = s.ws := rfl
@[simp] theorem setV_fault (r : Reg) (b : Byte) : (s.setV r b).fault = s.fault := rfl
@[simp] theorem setV_mem (r : Reg) (b : Byte) : (s.setV r b).mem = s.mem := rfl
@[simp] theorem setV_rand (r : Reg) (b : Byte) : (s.setV r b).rand = s.rand := rfl
@[simp] theorem setV_randCount (r : Reg) (b : Byte) : (s.setV r b).randCount = s.randCount := rfl
@[simp] theorem setV_byteAt (r : Reg) (b : Byte) (p : Nat) : (s.setV r b).byteAt p = s.byteAt p := rfl

/-! ### `setVF` -/

@[simp] theorem setVF_cfg (c : Bool) : (s.setVF c).cfg = s.cfg := rfl
@[simp] theorem setVF_i (c : Bool) : (s.setVF c).i = s.i := rfl
@[simp] theorem setVF_pc (c : Bool) : (s.setVF c).pc = s.pc := rfl
@[simp] theorem setVF_sp (c : Bool) : (s.setVF c).sp = s.sp := rfl
@[simp] theorem setVF_stack (c : Bool) : (s.setVF c).stack = s.stack := rfl
@[simp] theorem setVF_dt (c : Bool) : (s.setVF c).dt = s.dt := rfl
@[simp] theorem setVF_st (c : Bool) : (s.setVF c).st = s.st := rfl
@[simp] theorem setVF_fb (c : Bool) : (s.setVF c).fb = s.fb := rfl
@[simp] theorem setVF_key (c : Bool) : (s.setVF c).key = s.key := rfl
@[simp] theorem setVF_ws (c : Bool) : (s.setVF c).ws = s.ws := rfl
@[simp] theorem setVF_fault (c : Bool) : (s.setVF c).fault = s.fault := rfl
@[simp] theorem setVF_mem (c : Bool) : (s.setVF c).mem = s.mem := rfl
@[simp] theorem setVF_rand (c : Bool) : (s.setVF c).rand = s.rand := rfl
@[simp] theorem setVF_randCount (c : Bool) : (s.setVF c).randCount = s.randCount := rfl
@[simp] theorem setVF_byteAt (c : Bool) (p : Nat) : (s.setVF c).byteAt p = s.byteAt p := rfl

/-! ### `storeByte` -/

@[simp] theorem storeByte_cfg (a : Nat) (b : Byte) : (s.storeByte a b).cfg = s.cfg := rfl
@[simp] theorem storeByte_v (a : Nat) (b : Byte) : (s.storeByte a b).v = s.v := rfl
@[simp] theorem storeByte_i (a : Nat) (b : Byte) : (s.storeByte a b).i = s.i := rfl
@[simp] theorem storeByte_pc (a : Nat) (b : Byte) : (s.storeByte a b).pc = s.pc := rfl
@[simp] theorem storeByte_sp (a : Nat) (b : Byte) : (s.storeByte a b).sp = s.sp := rfl
@[simp] theorem storeByte_stack (a : Nat) (b : Byte) : (s.storeByte a b).stack = s.stack := rfl
@[simp] theorem storeByte_dt (a : Nat) (b : Byte) : (s.storeByte a b).dt = s.dt := rfl
@[simp] theorem storeByte_st (a : Nat) (b : Byte) : (s.storeByte a b).st = s.st := rfl
@[simp] theorem storeByte_fb (a : Nat) (b : Byte) : (s.storeByte a b).fb = s.fb := rfl
@[simp] theorem storeByte_key (a : Nat) (b : Byte) : (s.storeByte a b).key = s.key := rfl
@[simp] theorem storeByte_ws (a : Nat) (b : Byte) : (s.storeByte a b).ws = s.ws := rfl
@[simp] theorem storeByte_fault (a : Nat) (b : Byte) : (s.storeByte a b).fault = s.fault := rfl
@[simp] theorem storeByte_mem (a : Nat) (b : Byte) : (s.storeByte a b).mem = Memory.write s.cfg s.mem a b := rfl
@[simp] theorem storeByte_rand (a : Nat) (b : Byte) : (s.storeByte a b).rand = s.rand := rfl
@[simp] theorem storeByte_randCount (a : Nat) (b : Byte) : (s.storeByte a b).randCount = s.randCount := rfl
@[simp] theorem storeByte_getV (a : Nat) (b : Byte) (q : Reg) : (s.storeByte a b).getV q = s.getV q := rfl

/-! ### `advance` -/

@[simp] theorem advance_cfg : s.advance.cfg = s.cfg := rfl
@[simp] theorem advance_v : s.advance.v = s.v := rfl
@[simp] theorem advance_i : s.advance.i = s.i := rfl
@[simp] theorem advance_pc : s.advance.pc = s.pc + 2 := rfl
@[simp] theorem advance_sp : s.advance.sp = s.sp := rfl
@[simp] theorem advance_stack : s.advance.stack = s.stack := rfl
@[simp] theorem advance_dt : s.advance.dt = s.dt := rfl
@[simp] theorem advance_st : s.advance.st = s.st := rfl
@[simp] theorem advance_fb : s.advance.fb = s.fb := rfl
@[simp] theorem advance_key : s.advance.key = s.key := rfl
@[simp] theorem advance_ws : s.advance.ws = s.ws := rfl
@[simp] theorem advance_fault : s.advance.fault = s.fault := rfl
@[simp] theorem advance_mem : s.advance.mem = s.mem := rfl
@[simp] theorem advance_rand : s.advance.rand = s.rand := rfl
@[simp] theorem advance_randCount : s.advance.randCount = s.randCount := rfl
@[simp] theorem advance_byteAt (p : Nat) : s.advance.byteAt p = s.byteAt p := rfl
@[simp] theorem advance_getV (q : Reg) : s.advance.getV q = s.getV q := rfl

/-! ### `skipIf` -/

@[simp] theorem skipIf_cfg (c : Bool) : (s.skipIf c).cfg = s.cfg := rfl
@[simp] theorem skipIf_v (c : Bool) : (s.skipIf c).v = s.v := rfl
@[simp] theorem skipIf_i (c : Bool) : (s.skipIf c).i = s.i := rfl
@[simp] theorem skipIf_pc (c : Bool) : (s.skipIf c).pc = if c then s.pc + 4 else s.pc + 2 := rfl
@[simp] theorem skipIf_sp (c : Bool) : (s.skipIf c).sp = s.sp := rfl
@[simp] theorem skipIf_stack (c : Bool) : (s.skipIf c).stack = s.stack := rfl
@[simp] theorem skipIf_dt (c : Bool) : (s.skipIf c).dt = s.dt := rfl
@[simp] theorem skipIf_st (c : Bool) : (s.skipIf c).st = s.st := rfl
@[simp] theorem skipIf_fb (c : Bool) : (s.skipIf c).fb = s.fb := rfl
@[simp] theorem skipIf_key (c : Bool) : (s.skipIf c).key = s.key := rfl
@[simp] theorem skipIf_ws (c : Bool) : (s.skipIf c).ws = s.ws := rfl
@[simp] theorem skipIf_fault (c : Bool) : (s.skipIf c).fault = s.fault := rfl
@[simp] theorem skipIf_mem (c : Bool) : (s.skipIf c).mem = s.mem := rfl
@[simp] theorem skipIf_rand (c : Bool) : (s.skipIf c).rand = s.rand := rfl
@[simp] theorem skipIf_randCount (c : Bool) : (s.skipIf c).randCount = s.randCount := rfl
@[simp] theorem skipIf_byteAt (c : Bool) (p : Nat) : (s.skipIf c).byteAt p = s.byteAt p := rfl
@[simp] theorem skipIf_getV (c : Bool) (q : Reg) : (s.skipIf c).getV q = s.getV q := rfl

/-! ### `jump` -/

@[simp] theorem jump_cfg (w : Word) : (s.jump w).cfg = s.cfg := rfl
@[simp] theorem jump_v (w : Word) : (s.jump w).v = s.v := rfl
@[simp] theorem jump_i (w : Word) : (s.jump w).i = s.i := rfl
@[simp] theorem jump_pc (w : Word) : (s.jump w).pc = w := rfl
@[simp] theorem jump_sp (w : Word) : (s.jump w).sp = s.sp := rfl
@[simp] theorem jump_stack (w : Word) : (s.jump w).stack = s.stack := rfl
@[simp] theorem jump_dt (w : Word) : (s.jump w).dt = s.dt := rfl
@[simp] theorem jump_st (w : Word) : (s.jump w).st = s.st := rfl
@[simp] theorem jump_fb (w : Word) : (s.jump w).fb = s.fb := rfl
@[simp] theorem jump_key (w : Word) : (s.jump w).key = s.key := rfl
@[simp] theorem jump_ws (w : Word) : (s.jump w).ws = s.ws := rfl
@[simp] theorem jump_fault (w : Word) : (s.jump w).fault = s.fault := rfl
@[simp] theorem jump_mem (w : Word) : (s.jump w).mem = s.mem := rfl
@[simp] theorem jump_rand (w : Word) : (s.jump w).rand = s.rand := rfl
@[simp] theorem jump_randCount (w : Word) : (s.jump w).randCount = s.randCount := rfl
@[simp] theorem jump_byteAt (w : Word) (p : Nat) : (s.jump w).byteAt p = s.byteAt p := rfl
@[simp] theorem jump_getV (w : Word) (q : Reg) : (s.jump w).getV q = s.getV q := rfl

/-! ### `takeFault` -/

@[simp] theorem takeFault_cfg (f : EngineFault) (w : Option Word) : (s.takeFault f w).cfg = s.cfg := rfl
@[simp] theorem takeFault_v (f : EngineFault) (w : Option Word) : (s.takeFault f w).v = s.v := rfl
@[simp] theorem takeFault_i (f : EngineFault) (w : Option Word) : (s.takeFault f w).i = s.i := rfl
@[simp] theorem takeFault_pc (f : EngineFault) (w : Option Word) : (s.takeFault f w).pc = s.pc := rfl
@[simp] theorem takeFault_sp (f : EngineFault) (w : Option Word) : (s.takeFault f w).sp = s.sp := rfl
@[simp] theorem takeFault_stack (f : EngineFault) (w : Option Word) : (s.takeFault f w).stack = s.stack := rfl
@[simp] theorem takeFault_dt (f : EngineFault) (w : Option Word) : (s.takeFault f w).dt = s.dt := rfl
@[simp] theorem takeFault_st (f : EngineFault) (w : Option Word) : (s.takeFault f w).st = s.st := rfl
@[simp] theorem takeFault_fb (f : EngineFault) (w : Option Word) : (s.takeFault f w).fb = s.fb := rfl
@[simp] theorem takeFault_key (f : EngineFault) (w : Option Word) : (s.takeFault f w).key = s.key := rfl
@[simp] theorem takeFault_ws (f : EngineFault) (w : Option Word) : (s.takeFault f w).ws = s.ws := rfl
@[simp] theorem takeFault_fault (f : EngineFault) (w : Option Word) : (s.takeFault f w).fault = { code := some f, addr := s.pc, word := w.getD 0, wordValid := w.isSome } := rfl
@[simp] theorem takeFault_mem (f : EngineFault) (w : Option Word) : (s.takeFault f w).mem = s.mem := rfl
@[simp] theorem takeFault_rand (f : EngineFault) (w : Option Word) : (s.takeFault f w).rand = s.rand := rfl
@[simp] theorem takeFault_randCount (f : EngineFault) (w : Option Word) : (s.takeFault f w).randCount = s.randCount := rfl
@[simp] theorem takeFault_byteAt (f : EngineFault) (w : Option Word) (p : Nat) : (s.takeFault f w).byteAt p = s.byteAt p := rfl
@[simp] theorem takeFault_getV (f : EngineFault) (w : Option Word) (q : Reg) : (s.takeFault f w).getV q = s.getV q := rfl

/-! ### `drawRandom` -/

@[simp] theorem drawRandom_cfg : s.drawRandom.cfg = s.cfg := rfl
@[simp] theorem drawRandom_v : s.drawRandom.v = s.v := rfl
@[simp] theorem drawRandom_i : s.drawRandom.i = s.i := rfl
@[simp] theorem drawRandom_pc : s.drawRandom.pc = s.pc := rfl
@[simp] theorem drawRandom_sp : s.drawRandom.sp = s.sp := rfl
@[simp] theorem drawRandom_stack : s.drawRandom.stack = s.stack := rfl
@[simp] theorem drawRandom_dt : s.drawRandom.dt = s.dt := rfl
@[simp] theorem drawRandom_st : s.drawRandom.st = s.st := rfl
@[simp] theorem drawRandom_fb : s.drawRandom.fb = s.fb := rfl
@[simp] theorem drawRandom_key : s.drawRandom.key = s.key := rfl
@[simp] theorem drawRandom_ws : s.drawRandom.ws = s.ws := rfl
@[simp] theorem drawRandom_fault : s.drawRandom.fault = s.fault := rfl
@[simp] theorem drawRandom_mem : s.drawRandom.mem = s.mem := rfl
@[simp] theorem drawRandom_rand : s.drawRandom.rand = Config.randomByte s.randCount := rfl
@[simp] theorem drawRandom_randCount : s.drawRandom.randCount = s.randCount + 1 := rfl
@[simp] theorem drawRandom_byteAt (p : Nat) : s.drawRandom.byteAt p = s.byteAt p := rfl
@[simp] theorem drawRandom_getV (q : Reg) : s.drawRandom.getV q = s.getV q := rfl

/-! ### `advanceIndex` -/

@[simp] theorem advanceIndex_cfg (x : Reg) : (s.advanceIndex x).cfg = s.cfg := rfl
@[simp] theorem advanceIndex_v (x : Reg) : (s.advanceIndex x).v = s.v := rfl
@[simp] theorem advanceIndex_i (x : Reg) : (s.advanceIndex x).i = if s.cfg.quirks.ldstAdvanceI then s.i + BitVec.ofNat 16 (x.val + 1) else s.i := rfl
@[simp] theorem advanceIndex_pc (x : Reg) : (s.advanceIndex x).pc = s.pc := rfl
@[simp] theorem advanceIndex_sp (x : Reg) : (s.advanceIndex x).sp = s.sp := rfl
@[simp] theorem advanceIndex_stack (x : Reg) : (s.advanceIndex x).stack = s.stack := rfl
@[simp] theorem advanceIndex_dt (x : Reg) : (s.advanceIndex x).dt = s.dt := rfl
@[simp] theorem advanceIndex_st (x : Reg) : (s.advanceIndex x).st = s.st := rfl
@[simp] theorem advanceIndex_fb (x : Reg) : (s.advanceIndex x).fb = s.fb := rfl
@[simp] theorem advanceIndex_key (x : Reg) : (s.advanceIndex x).key = s.key := rfl
@[simp] theorem advanceIndex_ws (x : Reg) : (s.advanceIndex x).ws = s.ws := rfl
@[simp] theorem advanceIndex_fault (x : Reg) : (s.advanceIndex x).fault = s.fault := rfl
@[simp] theorem advanceIndex_mem (x : Reg) : (s.advanceIndex x).mem = s.mem := rfl
@[simp] theorem advanceIndex_rand (x : Reg) : (s.advanceIndex x).rand = s.rand := rfl
@[simp] theorem advanceIndex_randCount (x : Reg) : (s.advanceIndex x).randCount = s.randCount := rfl
@[simp] theorem advanceIndex_byteAt (x : Reg) (p : Nat) : (s.advanceIndex x).byteAt p = s.byteAt p := rfl
@[simp] theorem advanceIndex_getV (x : Reg) (q : Reg) : (s.advanceIndex x).getV q = s.getV q := rfl

/-! ### Reading a register after a write -/

/-- A register read after a write: the byte written to that register, and every other register as before. -/
@[simp] theorem getV_setV (r q : Reg) (b : Byte) : (s.setV r b).getV q = if q = r then b else s.getV q := by
  by_cases h : q = r
  · subst h; simp [getV, setV]
  · have : r.val ≠ q.val := fun e => h (Fin.ext e.symm)
    simp [getV, setV, h, Vector.getElem_set_ne, this]

/-- `VF` holds the flag, and every other register is as before. -/
@[simp] theorem getV_setVF (q : Reg) (c : Bool) :
    (s.setVF c).getV q = if q = regVF then flagByte c else s.getV q := by
  simp [setVF]

end State

/-! ### The register writers built from them -/

@[simp] theorem State.writeFlagged_getV (s : State) (x q : Reg) (b : Byte) (c : Bool) :
    (s.writeFlagged x b c).getV q = if q = regVF then flagByte c else if q = x then b else s.getV q := by
  simp [State.writeFlagged]

@[simp] theorem State.writeFlagged_pc (s : State) (x : Reg) (b : Byte) (c : Bool) :
    (s.writeFlagged x b c).pc = s.pc + 2 := rfl

/-- Two machines with equal registers have equal register files. -/
theorem State.v_ext {s t : State} (h : ∀ r, s.getV r = t.getV r) : s.v = t.v := by
  apply Vector.ext
  intro k hk
  exact h ⟨k, hk⟩

end Sys2Proof.Machine
end

