-- ==== Sys2Proof/Laws/Ops.lean ====
section
/-! SUPPORT. One lemma for each shared operation: everything it can do. -/

namespace Sys2Proof.Machine
namespace State

variable (s : State)

/-! ### Bytes of memory -/

/-- A byte read after a store: the byte stored there, and every other address as before (R62). -/
@[simp] theorem byteAt_storeByte (a : Nat) (b : Byte) (p : Nat) :
    (s.storeByte a b).byteAt p = if p = a then b else s.byteAt p :=
  Memory.read_write s.cfg s.mem a b p

/-- A byte read after several stores. -/
theorem byteAt_storeBytes (a : Nat) (bs : List Byte) (p : Nat) :
    (s.storeBytes a bs).byteAt p =
      if h : a ≤ p ∧ p < a + bs.length then bs[p - a]'(by omega) else s.byteAt p := by
  induction bs generalizing s a with
  | nil => simp [storeBytes]
  | cons b bs ih =>
    simp only [storeBytes, ih, byteAt_storeByte, List.length_cons]
    by_cases h1 : p = a
    · subst h1
      simp
    · by_cases h2 : a + 1 ≤ p ∧ p < a + 1 + bs.length
      · have h3 : a ≤ p ∧ p < a + (bs.length + 1) := by omega
        have h4 : p - a = (p - (a + 1)) + 1 := by omega
        simp [h2, h3, h4]
      · have h3 : ¬ (a ≤ p ∧ p < a + (bs.length + 1)) := by omega
        rw [dif_neg h2, dif_neg h3, if_neg h1]

/-- Every address outside the stored bytes reads as before. -/
theorem byteAt_storeBytes_outside (a : Nat) (bs : List Byte) {p : Nat} (h : p < a ∨ a + bs.length ≤ p) :
    (s.storeBytes a bs).byteAt p = s.byteAt p := by
  rw [byteAt_storeBytes, dif_neg (by omega)]

/-- A store inside 0x000..0xFFF keeps the memory canonical. -/
theorem wf_storeByte {a : Nat} (b : Byte) (ha : a < 0x1000) (h : Memory.wf s.cfg s.mem) :
    Memory.wf (s.storeByte a b).cfg (s.storeByte a b).mem :=
  Memory.wf_write s.cfg b ha h

@[simp] theorem loadBytes_length (a n : Nat) : (s.loadBytes a n).length = n := by simp [loadBytes]

theorem loadBytes_getElem (a n k : Nat) (h : k < (s.loadBytes a n).length) :
    (s.loadBytes a n)[k] = s.byteAt (a + k) := by simp [loadBytes]


/-! ### `storeBytes` changes only `mem` -/

@[simp] theorem storeBytes_cfg (a : Nat) (bs : List Byte) : (s.storeBytes a bs).cfg = s.cfg := by
  induction bs generalizing s a with
  | nil => rfl
  | cons b bs ih => exact ih (s.storeByte a b) (a + 1)

@[simp] theorem storeBytes_v (a : Nat) (bs : List Byte) : (s.storeBytes a bs).v = s.v := by
  induction bs generalizing s a with
  | nil => rfl
  | cons b bs ih => exact ih (s.storeByte a b) (a + 1)

@[simp] theorem storeBytes_i (a : Nat) (bs : List Byte) : (s.storeBytes a bs).i = s.i := by
  induction bs generalizing s a with
  | nil => rfl
  | cons b bs ih => exact ih (s.storeByte a b) (a + 1)

@[simp] theorem storeBytes_pc (a : Nat) (bs : List Byte) : (s.storeBytes a bs).pc = s.pc := by
  induction bs generalizing s a with
  | nil => rfl
  | cons b bs ih => exact ih (s.storeByte a b) (a + 1)

@[simp] theorem storeBytes_sp (a : Nat) (bs : List Byte) : (s.storeBytes a bs).sp = s.sp := by
  induction bs generalizing s a with
  | nil => rfl
  | cons b bs ih => exact ih (s.storeByte a b) (a + 1)

@[simp] theorem storeBytes_stack (a : Nat) (bs : List Byte) : (s.storeBytes a bs).stack = s.stack := by
  induction bs generalizing s a with
  | nil => rfl
  | cons b bs ih => exact ih (s.storeByte a b) (a + 1)

@[simp] theorem storeBytes_dt (a : Nat) (bs : List Byte) : (s.storeBytes a bs).dt = s.dt := by
  induction bs generalizing s a with
  | nil => rfl
  | cons b bs ih => exact ih (s.storeByte a b) (a + 1)

@[simp] theorem storeBytes_st (a : Nat) (bs : List Byte) : (s.storeBytes a bs).st = s.st := by
  induction bs generalizing s a with
  | nil => rfl
  | cons b bs ih => exact ih (s.storeByte a b) (a + 1)

@[simp] theorem storeBytes_fb (a : Nat) (bs : List Byte) : (s.storeBytes a bs).fb = s.fb := by
  induction bs generalizing s a with
  | nil => rfl
  | cons b bs ih => exact ih (s.storeByte a b) (a + 1)

@[simp] theorem storeBytes_key (a : Nat) (bs : List Byte) : (s.storeBytes a bs).key = s.key := by
  induction bs generalizing s a with
  | nil => rfl
  | cons b bs ih => exact ih (s.storeByte a b) (a + 1)

@[simp] theorem storeBytes_ws (a : Nat) (bs : List Byte) : (s.storeBytes a bs).ws = s.ws := by
  induction bs generalizing s a with
  | nil => rfl
  | cons b bs ih => exact ih (s.storeByte a b) (a + 1)

@[simp] theorem storeBytes_fault (a : Nat) (bs : List Byte) : (s.storeBytes a bs).fault = s.fault := by
  induction bs generalizing s a with
  | nil => rfl
  | cons b bs ih => exact ih (s.storeByte a b) (a + 1)

@[simp] theorem storeBytes_rand (a : Nat) (bs : List Byte) : (s.storeBytes a bs).rand = s.rand := by
  induction bs generalizing s a with
  | nil => rfl
  | cons b bs ih => exact ih (s.storeByte a b) (a + 1)

@[simp] theorem storeBytes_randCount (a : Nat) (bs : List Byte) : (s.storeBytes a bs).randCount = s.randCount := by
  induction bs generalizing s a with
  | nil => rfl
  | cons b bs ih => exact ih (s.storeByte a b) (a + 1)


/-! ### `setRegs` changes only `v` -/

@[simp] theorem setRegs_cfg (l : List (Reg × Byte)) : (s.setRegs l).cfg = s.cfg := by
  induction l generalizing s with
  | nil => rfl
  | cons c l ih => exact ih (s.setV c.1 c.2)

@[simp] theorem setRegs_i (l : List (Reg × Byte)) : (s.setRegs l).i = s.i := by
  induction l generalizing s with
  | nil => rfl
  | cons c l ih => exact ih (s.setV c.1 c.2)

@[simp] theorem setRegs_pc (l : List (Reg × Byte)) : (s.setRegs l).pc = s.pc := by
  induction l generalizing s with
  | nil => rfl
  | cons c l ih => exact ih (s.setV c.1 c.2)

@[simp] theorem setRegs_sp (l : List (Reg × Byte)) : (s.setRegs l).sp = s.sp := by
  induction l generalizing s with
  | nil => rfl
  | cons c l ih => exact ih (s.setV c.1 c.2)

@[simp] theorem setRegs_stack (l : List (Reg × Byte)) : (s.setRegs l).stack = s.stack := by
  induction l generalizing s with
  | nil => rfl
  | cons c l ih => exact ih (s.setV c.1 c.2)

@[simp] theorem setRegs_dt (l : List (Reg × Byte)) : (s.setRegs l).dt = s.dt := by
  induction l generalizing s with
  | nil => rfl
  | cons c l ih => exact ih (s.setV c.1 c.2)

@[simp] theorem setRegs_st (l : List (Reg × Byte)) : (s.setRegs l).st = s.st := by
  induction l generalizing s with
  | nil => rfl
  | cons c l ih => exact ih (s.setV c.1 c.2)

@[simp] theorem setRegs_fb (l : List (Reg × Byte)) : (s.setRegs l).fb = s.fb := by
  induction l generalizing s with
  | nil => rfl
  | cons c l ih => exact ih (s.setV c.1 c.2)

@[simp] theorem setRegs_key (l : List (Reg × Byte)) : (s.setRegs l).key = s.key := by
  induction l generalizing s with
  | nil => rfl
  | cons c l ih => exact ih (s.setV c.1 c.2)

@[simp] theorem setRegs_ws (l : List (Reg × Byte)) : (s.setRegs l).ws = s.ws := by
  induction l generalizing s with
  | nil => rfl
  | cons c l ih => exact ih (s.setV c.1 c.2)

@[simp] theorem setRegs_fault (l : List (Reg × Byte)) : (s.setRegs l).fault = s.fault := by
  induction l generalizing s with
  | nil => rfl
  | cons c l ih => exact ih (s.setV c.1 c.2)

@[simp] theorem setRegs_mem (l : List (Reg × Byte)) : (s.setRegs l).mem = s.mem := by
  induction l generalizing s with
  | nil => rfl
  | cons c l ih => exact ih (s.setV c.1 c.2)

@[simp] theorem setRegs_rand (l : List (Reg × Byte)) : (s.setRegs l).rand = s.rand := by
  induction l generalizing s with
  | nil => rfl
  | cons c l ih => exact ih (s.setV c.1 c.2)

@[simp] theorem setRegs_randCount (l : List (Reg × Byte)) : (s.setRegs l).randCount = s.randCount := by
  induction l generalizing s with
  | nil => rfl
  | cons c l ih => exact ih (s.setV c.1 c.2)

@[simp] theorem storeBytes_getV (a : Nat) (bs : List Byte) (q : Reg) :
    (s.storeBytes a bs).getV q = s.getV q := by simp [getV]

@[simp] theorem setRegs_byteAt (l : List (Reg × Byte)) (p : Nat) : (s.setRegs l).byteAt p = s.byteAt p := by
  simp [byteAt]

/-- Stores inside 0x000..0xFFF keep the memory canonical. -/
theorem wf_storeBytes {a : Nat} (bs : List Byte) (ha : a + bs.length ≤ 0x1000) (h : Memory.wf s.cfg s.mem) :
    Memory.wf s.cfg (s.storeBytes a bs).mem := by
  induction bs generalizing s a with
  | nil => exact h
  | cons b bs ih =>
    rw [List.length_cons] at ha
    exact ih (s.storeByte a b) (a := a + 1) (by omega) (wf_storeByte s b (by omega) h)

/-! ### Register ranges -/

/-- A register after a list of writes, one value a register. -/
theorem getV_setRegs_map (f : Reg → Byte) (l : List Reg) (q : Reg) :
    (s.setRegs (l.map (fun k => (k, f k)))).getV q = if q ∈ l then f q else s.getV q := by
  induction l generalizing s with
  | nil => simp [setRegs]
  | cons c l ih =>
    simp only [List.map_cons, setRegs, ih, getV_setV, List.mem_cons]
    by_cases h1 : q ∈ l
    · simp [h1]
    · by_cases h2 : q = c
      · subst h2; simp
      · simp [h1, h2]

end State

/-- `regsUpTo x` is `V0`..`Vx`. -/
@[simp] theorem mem_regsUpTo (x q : Reg) : q ∈ regsUpTo x ↔ q ≤ x := by simp [regsUpTo]

/-- `x + 1` registers: `regsUpTo x` in order is the first `x + 1` registers. -/
theorem regsUpTo_eq_take (x : Reg) : regsUpTo x = (List.finRange 16).take (x.val + 1) := by
  revert x; decide

@[simp] theorem regsUpTo_length (x : Reg) : (regsUpTo x).length = x.val + 1 := by
  revert x; decide

theorem regsUpTo_getElem (x : Reg) (k : Nat) (h : k < (regsUpTo x).length) :
    ((regsUpTo x)[k]).val = k := by
  simp [regsUpTo_eq_take]

@[simp] theorem State.bytesUpTo_length (s : State) (x : Reg) : (s.bytesUpTo x).length = x.val + 1 := by
  simp [State.bytesUpTo]

theorem State.bytesUpTo_getElem (s : State) (x q : Reg) (h : q.val < (s.bytesUpTo x).length) :
    (s.bytesUpTo x)[q.val] = s.getV q := by
  have h' : q.val < (regsUpTo x).length := by simpa [State.bytesUpTo] using h
  have : (regsUpTo x)[q.val] = q := Fin.ext (regsUpTo_getElem x q.val h')
  simp [State.bytesUpTo, this]

/-! ### The call stack -/

/-- Push succeeds exactly below 16 entries, writes the free slot and counts it. -/
theorem State.push_eq_some {s t : State} {w : Word} (h : s.push w = some t) :
    ∃ hs : s.sp.val < 16, t = { s with stack := s.stack.set s.sp.val w hs, sp := ⟨s.sp.val + 1, by omega⟩ } := by
  unfold State.push at h
  split at h
  · rename_i hs; exact ⟨hs, (Option.some.inj h).symm⟩
  · cases h

theorem State.push_eq_none {s : State} {w : Word} : s.push w = none ↔ s.sp.val = 16 := by
  unfold State.push
  split <;> simp <;> omega

/-- Pop succeeds exactly above 0 entries, reads the top one and uncounts it. -/
theorem State.pop_eq_some {s t : State} {w : Word} (h : s.pop = some (w, t)) :
    ∃ hs : 0 < s.sp.val, w = s.stack[s.sp.val - 1]'(by omega) ∧ t = { s with sp := ⟨s.sp.val - 1, by omega⟩ } := by
  unfold State.pop at h
  split at h
  · rename_i hs
    have := Option.some.inj h
    exact ⟨hs, (congrArg Prod.fst this).symm, (congrArg Prod.snd this).symm⟩
  · cases h

theorem State.pop_eq_none {s : State} : s.pop = none ↔ s.sp.val = 0 := by
  unfold State.pop
  split <;> simp <;> omega

/-! ### Status, fetch and fault entry -/

@[simp] theorem State.takeFault_halted (s : State) (f : EngineFault) (w : Option Word) :
    (s.takeFault f w).halted = true := rfl

theorem State.not_halted_iff (s : State) : s.halted = false ↔ s.fault.code = none := by
  simp [State.halted]

theorem State.not_waiting_iff (s : State) : s.waiting = false ↔ s.ws = .running := by
  unfold State.waiting
  split <;> simp_all

theorem State.fetchWord_eq_none {s : State} : s.fetchWord = none ↔ 0xFFF ≤ s.pc.toNat := by
  unfold State.fetchWord
  split <;> simp <;> omega

theorem State.fetchWord_eq_some {s : State} {w : Word} (h : s.fetchWord = some w) :
    s.pc.toNat ≤ 0xFFE ∧ w = wordOfBytes (s.byteAt s.pc.toNat) (s.byteAt (s.pc.toNat + 1)) := by
  unfold State.fetchWord at h
  split at h
  · cases h
  · exact ⟨by omega, (Option.some.inj h).symm⟩

/-- `keyOperand` names no key exactly under the policy `fault` for a value above 15 (D17). -/
theorem State.keyOperand_eq_none {s : State} {x : Reg} :
    s.keyOperand x = none ↔ (s.getV x).toNat > 15 ∧ s.cfg.keyIndexPolicy = .fault := by
  unfold State.keyOperand
  simp only
  split <;> simp_all

theorem State.keyOperand_eq_some {s : State} {x : Reg} {k : Key} (h : s.keyOperand x = some k) :
    k.val = (s.getV x).toNat % 16 := by
  unfold State.keyOperand at h
  simp only at h
  split at h
  · cases h
  · rw [← Option.some.inj h]; rfl

end Sys2Proof.Machine
end

