-- ==== Sys2Proof/Laws/Display.lean ====
section
/-! SUPPORT. What a draw does to each cell and to the collision flag (spec/44_display.md R122). -/

namespace Sys2Proof.Machine

@[simp] theorem Framebuffer.cell_clear (px : Fin 64) (py : Fin 32) : Framebuffer.cell Framebuffer.clear px py = false := by
  simp [Framebuffer.cell, Framebuffer.clear]

/-- Flipping a cell changes that cell and no other. -/
theorem Framebuffer.cell_flip (fb : Framebuffer) (px qx : Fin 64) (py qy : Fin 32) :
    Framebuffer.cell (Framebuffer.flip fb px py) qx qy =
      (Framebuffer.cell fb qx qy ^^ decide ((qx, qy) = (px, py))) := by
  unfold Framebuffer.flip
  by_cases hy : qy = py
  · subst hy
    by_cases hx : qx = px
    · subst hx; simp [Framebuffer.cell]
    · have : px.val ≠ qx.val := fun e => hx (Fin.ext e.symm)
      simp [Framebuffer.cell, hx, this]
  · have : py.val ≠ qy.val := fun e => hy (Fin.ext e.symm)
    simp [Framebuffer.cell, hy, this]

/-- A framebuffer is its cells. -/
theorem Framebuffer.ext_cell {a b : Framebuffer} (h : ∀ px py, Framebuffer.cell a px py = Framebuffer.cell b px py) :
    a = b := by
  apply Vector.ext
  intro y hy
  apply Vector.ext
  intro x hx
  exact h ⟨x, hx⟩ ⟨y, hy⟩

/-! ### A draw is a list of cells flipped in turn -/

/-- Flip a list of cells. -/
def Drawing.flipAll (d : Drawing) (l : List (Fin 64 × Fin 32)) : Drawing := l.foldl (fun d q => d.flip q.1 q.2) d

/-- Distinct cells flipped in turn: each is inverted once, and the flag tells whether one of them was on. -/
theorem Drawing.flipAll_spec (l : List (Fin 64 × Fin 32)) (hl : l.Nodup) (d : Drawing) :
    (∀ qx qy, Framebuffer.cell (d.flipAll l).1 qx qy = (Framebuffer.cell d.1 qx qy ^^ decide ((qx, qy) ∈ l))) ∧
    ((d.flipAll l).2 = true ↔ d.2 = true ∨ ∃ q ∈ l, Framebuffer.cell d.1 q.1 q.2 = true) := by
  induction l generalizing d with
  | nil => simp [Drawing.flipAll]
  | cons p l ih =>
    obtain ⟨hp, hl⟩ := List.nodup_cons.1 hl
    obtain ⟨h1, h2⟩ := ih hl (d.flip p.1 p.2)
    have hstep : d.flipAll (p :: l) = (d.flip p.1 p.2).flipAll l := rfl
    rw [hstep]
    refine ⟨fun qx qy => ?_, ?_⟩
    · rw [h1, Drawing.flip, Framebuffer.cell_flip]
      by_cases ha : (qx, qy) = p
      · simp [ha, hp]
      · simp [ha]
    · rw [h2]
      simp only [Drawing.flip, Bool.or_eq_true, List.mem_cons, exists_eq_or_imp]
      have : (∃ q ∈ l, Framebuffer.cell (Framebuffer.flip d.1 p.1 p.2) q.1 q.2 = true) ↔
          ∃ q ∈ l, Framebuffer.cell d.1 q.1 q.2 = true := by
        refine exists_congr fun q => and_congr_right fun hq => ?_
        have hne : q ≠ p := fun e => hp (e ▸ hq)
        rw [Framebuffer.cell_flip]
        simp [hne]
      rw [this]
      tauto

/-- The cells of one sprite row that has its bit set. -/
def rowCells (x0 : Nat) (py : Fin 32) (row : Byte) : List (Fin 64 × Fin 32) :=
  ((List.range 8).filter (fun b => row.getLsbD (7 - b))).map (fun b => (Fin.ofNat 64 (x0 + b), py))

/-- The cells a sprite covers. -/
def spriteCells (x0 : Nat) : Nat → List Byte → List (Fin 64 × Fin 32)
  | _, [] => []
  | y0, row :: rest => rowCells x0 (Fin.ofNat 32 y0) row ++ spriteCells x0 (y0 + 1) rest

theorem Drawing.drawRow_eq (x0 : Nat) (py : Fin 32) (d : Drawing) (row : Byte) :
    d.drawRow x0 py row = d.flipAll (rowCells x0 py row) := by
  simp only [Drawing.drawRow, Drawing.flipAll, rowCells, List.foldl_map, List.foldl_filter]
  rfl

theorem Drawing.drawRows_eq (x0 y0 : Nat) (rows : List Byte) (d : Drawing) :
    Drawing.drawRows x0 y0 rows d = d.flipAll (spriteCells x0 y0 rows) := by
  induction rows generalizing y0 d with
  | nil => rfl
  | cons row rest ih =>
    rw [Drawing.drawRows, ih, Drawing.drawRow_eq, spriteCells]
    simp only [Drawing.flipAll, List.foldl_append]

theorem mem_rowCells {x0 : Nat} {py : Fin 32} {row : Byte} {q : Fin 64 × Fin 32} :
    q ∈ rowCells x0 py row ↔ ∃ b < 8, row.getLsbD (7 - b) = true ∧ q = (Fin.ofNat 64 (x0 + b), py) := by
  simp only [rowCells, List.mem_map, List.mem_filter, List.mem_range]
  constructor
  · rintro ⟨b, ⟨hb, hr⟩, rfl⟩; exact ⟨b, hb, hr, rfl⟩
  · rintro ⟨b, hb, hr, rfl⟩; exact ⟨b, ⟨hb, hr⟩, rfl⟩

theorem mem_spriteCells {x0 y0 : Nat} {rows : List Byte} {q : Fin 64 × Fin 32} :
    q ∈ spriteCells x0 y0 rows ↔
      ∃ r, ∃ h : r < rows.length, ∃ b < 8, rows[r].getLsbD (7 - b) = true ∧
        q = (Fin.ofNat 64 (x0 + b), Fin.ofNat 32 (y0 + r)) := by
  induction rows generalizing y0 with
  | nil => simp [spriteCells]
  | cons row rest ih =>
    simp only [spriteCells, List.mem_append, mem_rowCells, ih, List.length_cons]
    constructor
    · rintro (⟨b, hb, hr, rfl⟩ | ⟨r, hr, b, hb, hbit, rfl⟩)
      · exact ⟨0, by omega, b, hb, hr, rfl⟩
      · refine ⟨r + 1, by omega, b, hb, hbit, ?_⟩
        rw [Nat.add_assoc, Nat.add_comm 1 r]
    · rintro ⟨r, hr, b, hb, hbit, rfl⟩
      cases r with
      | zero => exact .inl ⟨b, hb, hbit, rfl⟩
      | succ r =>
        refine .inr ⟨r, by omega, b, hb, hbit, ?_⟩
        rw [Nat.add_assoc, Nat.add_comm 1 r]

theorem rowCells_nodup (x0 : Nat) (py : Fin 32) (row : Byte) : (rowCells x0 py row).Nodup := by
  refine List.Nodup.map_on ?_ (List.Nodup.filter _ List.nodup_range)
  intro a ha b hb h
  have ha := List.mem_range.1 (List.mem_filter.1 ha).1
  have hb := List.mem_range.1 (List.mem_filter.1 hb).1
  have := congrArg (fun q : Fin 64 × Fin 32 => q.1.val) h
  simp only [Fin.val_ofNat] at this
  omega

/-- No cell is covered twice by a sprite of at most 32 rows (R122). -/
theorem spriteCells_nodup (x0 y0 : Nat) (rows : List Byte) (h : rows.length ≤ 32) : (spriteCells x0 y0 rows).Nodup := by
  induction rows generalizing y0 with
  | nil => exact List.nodup_nil
  | cons row rest ih =>
    rw [List.length_cons] at h
    refine List.Nodup.append (rowCells_nodup _ _ _) (ih (y0 + 1) (by omega)) ?_
    intro q h1 h2
    obtain ⟨b, hb, -, rfl⟩ := mem_rowCells.1 h1
    obtain ⟨r, hr, c, hc, -, he⟩ := mem_spriteCells.1 h2
    have := congrArg (fun q : Fin 64 × Fin 32 => q.2.val) he
    simp only [Fin.val_ofNat] at this
    omega

end Sys2Proof.Machine
end

