-- ==== Sys2Proof/Laws/Masks.lean ====
section
/-! SUPPORT. The four masks of Table O1 as arithmetic on the word: what `w &&& mask = p` says of the number `w`
(spec/30_encoding.md R67 Table F1, R71). -/

namespace Sys2Proof

theorem toNat_append_bits {n m : Nat} (a : BitVec n) (b : BitVec m) : (a ++ b).toNat = a.toNat * 2 ^ m + b.toNat := by
  rw [BitVec.toNat_append, ← Nat.shiftLeft_add_eq_or_of_lt b.isLt, Nat.shiftLeft_eq]

theorem toNat_encodeRegReg_zero (c n : BitVec 4) : (encodeRegReg c 0 0 n).toNat = c.toNat * 4096 + n.toNat := by
  have h : (encodeRegReg c 0 0 n).toNat = (c ++ regBits 0 ++ regBits 0 ++ n).toNat := rfl
  have z : (regBits 0).toNat = 0 := by decide
  rw [h, toNat_append_bits, toNat_append_bits, toNat_append_bits, z]
  omega

theorem toNat_encodeRegByte_zero (c : BitVec 4) (nn : Byte) :
    (encodeRegByte c 0 nn).toNat = c.toNat * 4096 + nn.toNat := by
  have h : (encodeRegByte c 0 nn).toNat = (c ++ regBits 0 ++ nn).toNat := rfl
  have z : (regBits 0).toNat = 0 := by decide
  rw [h, toNat_append_bits, toNat_append_bits, z]
  omega

theorem toNat_field {w : Word} (low len : Nat) : (w.extractLsb' low len).toNat = w.toNat / 2 ^ low % 2 ^ len := by
  simp [Nat.shiftRight_eq_div_pow]

theorem and_F000 (w : Word) : w &&& 0xF000 = encodeRegReg (w.extractLsb' 12 4) 0 0 0 := by
  apply BitVec.eq_of_getLsbD_eq
  intro k hk
  simp only [BitVec.getLsbD_and, getLsbD_encodeRegReg]
  interval_cases k <;> simp [regBits]

theorem and_F00F (w : Word) : w &&& 0xF00F = encodeRegReg (w.extractLsb' 12 4) 0 0 (w.extractLsb' 0 4) := by
  apply BitVec.eq_of_getLsbD_eq
  intro k hk
  simp only [BitVec.getLsbD_and, getLsbD_encodeRegReg]
  interval_cases k <;> simp [regBits]

theorem and_F0FF (w : Word) : w &&& 0xF0FF = encodeRegByte (w.extractLsb' 12 4) 0 (w.extractLsb' 0 8) := by
  apply BitVec.eq_of_getLsbD_eq
  intro k hk
  simp only [BitVec.getLsbD_and, getLsbD_encodeRegByte]
  interval_cases k <;> simp [regBits]

/-- Mask 0xF000 keeps the class of the word. -/
theorem and_F000_eq_iff (w p : Word) : w &&& 0xF000 = p ↔ w.toNat / 4096 * 4096 = p.toNat := by
  rw [← BitVec.toNat_inj, and_F000, toNat_encodeRegReg_zero, toNat_field]
  have := w.isLt
  have : (0 : BitVec 4).toNat = 0 := rfl
  omega

/-- Mask 0xF00F keeps the class and the low nibble. -/
theorem and_F00F_eq_iff (w p : Word) : w &&& 0xF00F = p ↔ w.toNat / 4096 * 4096 + w.toNat % 16 = p.toNat := by
  rw [← BitVec.toNat_inj, and_F00F, toNat_encodeRegReg_zero, toNat_field, toNat_field]
  have := w.isLt
  omega

/-- Mask 0xF0FF keeps the class and the low byte. -/
theorem and_F0FF_eq_iff (w p : Word) : w &&& 0xF0FF = p ↔ w.toNat / 4096 * 4096 + w.toNat % 256 = p.toNat := by
  rw [← BitVec.toNat_inj, and_F0FF, toNat_encodeRegByte_zero, toNat_field, toNat_field]
  have := w.isLt
  omega

/-- Mask 0xFFFF keeps the whole word. -/
theorem and_FFFF_eq_iff (w p : Word) : w &&& 0xFFFF = p ↔ w.toNat = p.toNat := by
  rw [← BitVec.toNat_inj]
  have h : w &&& 0xFFFF = w := BitVec.and_allOnes
  rw [h]

end Sys2Proof
end

