-- ==== Sys2Proof/Laws/PerInstr.lean ====
section
/-! SUPPORT. The round trip of each instruction: its word decodes to it, with every operand at every value
(spec/30_encoding.md R68, R69, R71). -/

namespace Sys2Proof.Laws.RoundTrip

/-- The word of a well-formed instruction decodes to that instruction. -/
def Statement (i : Instr) : Prop := i.wellFormed = true → decode (encode i) = some i

theorem cls : Statement .cls := fun _ => by decide

theorem ret : Statement .ret := fun _ => by decide

theorem jp (nnn : BitVec 12) : Statement (.jp nnn) := fun _ =>
  (decode_of_index 2 (by decide) (selects_addr nnn rfl (by decide))).trans
    (congrArg (fun a => some (Instr.jp a)) (fieldNNN_encodeAddr _ nnn))

theorem call (nnn : BitVec 12) : Statement (.call nnn) := fun _ =>
  (decode_of_index 3 (by decide) (selects_addr nnn rfl (by decide))).trans
    (congrArg (fun a => some (Instr.call a)) (fieldNNN_encodeAddr _ nnn))

theorem seByte (x : Reg) (nn : Byte) : Statement (.seByte x nn) := fun _ =>
  (decode_of_index 4 (by decide) (selects_regByte x nn rfl (by decide))).trans
    (congrArg some (congrArg₂ Instr.seByte (fieldX_encodeRegByte _ x nn) (fieldNN_encodeRegByte _ x nn)))

theorem sneByte (x : Reg) (nn : Byte) : Statement (.sneByte x nn) := fun _ =>
  (decode_of_index 5 (by decide) (selects_regByte x nn rfl (by decide))).trans
    (congrArg some (congrArg₂ Instr.sneByte (fieldX_encodeRegByte _ x nn) (fieldNN_encodeRegByte _ x nn)))

theorem seReg (x y : Reg) : Statement (.seReg x y) := fun _ =>
  (decode_of_index 6 (by decide) (selects_regReg x y rfl (by decide))).trans
    (congrArg some (congrArg₂ Instr.seReg (fieldX_encodeRegReg _ x y _) (fieldY_encodeRegReg _ x y _)))

theorem ldByte (x : Reg) (nn : Byte) : Statement (.ldByte x nn) := fun _ =>
  (decode_of_index 7 (by decide) (selects_regByte x nn rfl (by decide))).trans
    (congrArg some (congrArg₂ Instr.ldByte (fieldX_encodeRegByte _ x nn) (fieldNN_encodeRegByte _ x nn)))

theorem addByte (x : Reg) (nn : Byte) : Statement (.addByte x nn) := fun _ =>
  (decode_of_index 8 (by decide) (selects_regByte x nn rfl (by decide))).trans
    (congrArg some (congrArg₂ Instr.addByte (fieldX_encodeRegByte _ x nn) (fieldNN_encodeRegByte _ x nn)))

theorem ldReg (x y : Reg) : Statement (.ldReg x y) := fun _ =>
  (decode_of_index 9 (by decide) (selects_regReg x y rfl (by decide))).trans
    (congrArg some (congrArg₂ Instr.ldReg (fieldX_encodeRegReg _ x y _) (fieldY_encodeRegReg _ x y _)))

theorem orReg (x y : Reg) : Statement (.orReg x y) := fun _ =>
  (decode_of_index 10 (by decide) (selects_regReg x y rfl (by decide))).trans
    (congrArg some (congrArg₂ Instr.orReg (fieldX_encodeRegReg _ x y _) (fieldY_encodeRegReg _ x y _)))

theorem andReg (x y : Reg) : Statement (.andReg x y) := fun _ =>
  (decode_of_index 11 (by decide) (selects_regReg x y rfl (by decide))).trans
    (congrArg some (congrArg₂ Instr.andReg (fieldX_encodeRegReg _ x y _) (fieldY_encodeRegReg _ x y _)))

theorem xorReg (x y : Reg) : Statement (.xorReg x y) := fun _ =>
  (decode_of_index 12 (by decide) (selects_regReg x y rfl (by decide))).trans
    (congrArg some (congrArg₂ Instr.xorReg (fieldX_encodeRegReg _ x y _) (fieldY_encodeRegReg _ x y _)))

theorem addReg (x y : Reg) : Statement (.addReg x y) := fun _ =>
  (decode_of_index 13 (by decide) (selects_regReg x y rfl (by decide))).trans
    (congrArg some (congrArg₂ Instr.addReg (fieldX_encodeRegReg _ x y _) (fieldY_encodeRegReg _ x y _)))

theorem subReg (x y : Reg) : Statement (.subReg x y) := fun _ =>
  (decode_of_index 14 (by decide) (selects_regReg x y rfl (by decide))).trans
    (congrArg some (congrArg₂ Instr.subReg (fieldX_encodeRegReg _ x y _) (fieldY_encodeRegReg _ x y _)))

theorem shr (x y : Reg) : Statement (.shr x y) := fun _ =>
  (decode_of_index 15 (by decide) (selects_regReg x y rfl (by decide))).trans
    (congrArg some (congrArg₂ Instr.shr (fieldX_encodeRegReg _ x y _) (fieldY_encodeRegReg _ x y _)))

theorem subn (x y : Reg) : Statement (.subn x y) := fun _ =>
  (decode_of_index 16 (by decide) (selects_regReg x y rfl (by decide))).trans
    (congrArg some (congrArg₂ Instr.subn (fieldX_encodeRegReg _ x y _) (fieldY_encodeRegReg _ x y _)))

theorem shl (x y : Reg) : Statement (.shl x y) := fun _ =>
  (decode_of_index 17 (by decide) (selects_regReg x y rfl (by decide))).trans
    (congrArg some (congrArg₂ Instr.shl (fieldX_encodeRegReg _ x y _) (fieldY_encodeRegReg _ x y _)))

theorem sneReg (x y : Reg) : Statement (.sneReg x y) := fun _ =>
  (decode_of_index 18 (by decide) (selects_regReg x y rfl (by decide))).trans
    (congrArg some (congrArg₂ Instr.sneReg (fieldX_encodeRegReg _ x y _) (fieldY_encodeRegReg _ x y _)))

theorem ldI (nnn : BitVec 12) : Statement (.ldI nnn) := fun _ =>
  (decode_of_index 19 (by decide) (selects_addr nnn rfl (by decide))).trans
    (congrArg (fun a => some (Instr.ldI a)) (fieldNNN_encodeAddr _ nnn))

theorem jpV0 (nnn : BitVec 12) : Statement (.jpV0 nnn) := fun _ =>
  (decode_of_index 20 (by decide) (selects_addr nnn rfl (by decide))).trans
    (congrArg (fun a => some (Instr.jpV0 a)) (fieldNNN_encodeAddr _ nnn))

theorem rnd (x : Reg) (nn : Byte) : Statement (.rnd x nn) := fun _ =>
  (decode_of_index 21 (by decide) (selects_regByte x nn rfl (by decide))).trans
    (congrArg some (congrArg₂ Instr.rnd (fieldX_encodeRegByte _ x nn) (fieldNN_encodeRegByte _ x nn)))

theorem drw (x y : Reg) (n : Nat) : Statement (.drw x y n) := fun h => by
  have hn : n ≤ 15 := of_decide_eq_true h
  have hd := decode_of_index 22 (by decide) (w := encode (.drw x y n)) (selects_regRegNib x y _ rfl (by decide))
  have hN : fieldN (encode (.drw x y n)) = n := by
    simp only [encode, fieldN_encodeRegReg, BitVec.toNat_ofNat]
    omega
  refine hd.trans ?_
  show some (Instr.drw (fieldX _) (fieldY _) (fieldN (encode (.drw x y n)))) = _
  rw [hN]
  simp only [encode, fieldX_encodeRegReg, fieldY_encodeRegReg]

theorem skp (x : Reg) : Statement (.skp x) := fun _ =>
  (decode_of_index 23 (by decide) (selects_reg x rfl (by decide))).trans
    (congrArg (fun a => some (Instr.skp a)) (fieldX_encodeRegByte _ x _))

theorem sknp (x : Reg) : Statement (.sknp x) := fun _ =>
  (decode_of_index 24 (by decide) (selects_reg x rfl (by decide))).trans
    (congrArg (fun a => some (Instr.sknp a)) (fieldX_encodeRegByte _ x _))

theorem ldVxDt (x : Reg) : Statement (.ldVxDt x) := fun _ =>
  (decode_of_index 25 (by decide) (selects_reg x rfl (by decide))).trans
    (congrArg (fun a => some (Instr.ldVxDt a)) (fieldX_encodeRegByte _ x _))

theorem ldVxK (x : Reg) : Statement (.ldVxK x) := fun _ =>
  (decode_of_index 26 (by decide) (selects_reg x rfl (by decide))).trans
    (congrArg (fun a => some (Instr.ldVxK a)) (fieldX_encodeRegByte _ x _))

theorem ldDtVx (x : Reg) : Statement (.ldDtVx x) := fun _ =>
  (decode_of_index 27 (by decide) (selects_reg x rfl (by decide))).trans
    (congrArg (fun a => some (Instr.ldDtVx a)) (fieldX_encodeRegByte _ x _))

theorem ldStVx (x : Reg) : Statement (.ldStVx x) := fun _ =>
  (decode_of_index 28 (by decide) (selects_reg x rfl (by decide))).trans
    (congrArg (fun a => some (Instr.ldStVx a)) (fieldX_encodeRegByte _ x _))

theorem addI (x : Reg) : Statement (.addI x) := fun _ =>
  (decode_of_index 29 (by decide) (selects_reg x rfl (by decide))).trans
    (congrArg (fun a => some (Instr.addI a)) (fieldX_encodeRegByte _ x _))

theorem ldF (x : Reg) : Statement (.ldF x) := fun _ =>
  (decode_of_index 30 (by decide) (selects_reg x rfl (by decide))).trans
    (congrArg (fun a => some (Instr.ldF a)) (fieldX_encodeRegByte _ x _))

theorem ldB (x : Reg) : Statement (.ldB x) := fun _ =>
  (decode_of_index 31 (by decide) (selects_reg x rfl (by decide))).trans
    (congrArg (fun a => some (Instr.ldB a)) (fieldX_encodeRegByte _ x _))

theorem storeRegs (x : Reg) : Statement (.storeRegs x) := fun _ =>
  (decode_of_index 32 (by decide) (selects_reg x rfl (by decide))).trans
    (congrArg (fun a => some (Instr.storeRegs a)) (fieldX_encodeRegByte _ x _))

theorem loadRegs (x : Reg) : Statement (.loadRegs x) := fun _ =>
  (decode_of_index 33 (by decide) (selects_reg x rfl (by decide))).trans
    (congrArg (fun a => some (Instr.loadRegs a)) (fieldX_encodeRegByte _ x _))

end Sys2Proof.Laws.RoundTrip
end

