-- ==== Sys2Proof/Laws/Transactions.lean ====
section
/-! SUPPORT. What each transaction other than a step can do (spec/60_exceptions.md R143, R146, R147;
spec/70_reset_and_hazards.md R157, R158). -/

namespace Sys2Proof.Machine

/-! ### What a reading of the state depends on -/

theorem State.getV_congr {s t : State} (h : t.v = s.v) (r : Reg) : t.getV r = s.getV r := by
  simp [State.getV, h]

theorem State.byteAt_congr {s t : State} (hc : t.cfg = s.cfg) (hm : t.mem = s.mem) (a : Nat) :
    t.byteAt a = s.byteAt a := by simp [State.byteAt, hc, hm]

theorem State.halted_congr {s t : State} (h : t.fault = s.fault) : t.halted = s.halted := by
  simp [State.halted, h]

theorem State.waiting_congr {s t : State} (h : t.ws = s.ws) : t.waiting = s.waiting := by
  simp [State.waiting, h]

/-! ### Ticks -/

/-- A timer loses 1, and 0 stays 0 (R144). -/
theorem toNat_countDown (b : Byte) : (countDown b).toNat = b.toNat - 1 := by
  unfold countDown
  split
  · have := b.isLt
    rw [BitVec.toNat_sub]
    simp
    omega
  · omega

theorem tick_halted {s : State} (h : s.halted = true) : tick s = s := by simp [tick, h]

theorem tick_running {s : State} (h : s.halted = false) :
    tick s = { s with dt := countDown s.dt, st := countDown s.st } := by simp [tick, h]

/-! ### Key events -/

/-- The key lines after an event: the key of the event, and every other key as before (R146). -/
theorem keyDown_setKeyLine (s : State) (k q : Key) (p : Bool) :
    ({ s with key := s.key.set k.val p k.isLt } : State).keyDown q = if q = k then p else s.keyDown q := by
  unfold State.keyDown
  by_cases h : q = k
  · subst h; simp
  · have : k.val ≠ q.val := fun e => h (Fin.ext e.symm)
    simp [h, this]

/-- The key lines after `setKey`, resolved wait or not. -/
theorem keyDown_setKey (s : State) (k q : Key) (p : Bool) :
    (setKey k p s).keyDown q = if q = k then p else s.keyDown q := by
  rw [← keyDown_setKeyLine]
  unfold setKey
  split
  · rfl
  · simp only
    split <;> rfl

/-- An event that is no key-down, or that meets a running or a halted machine, sets the key line and nothing else. -/
theorem setKey_plain {s : State} {k : Key} {p : Bool}
    (h : s.ws = .running ∨ p = false ∨ s.keyDown k = true ∨ s.halted = true) :
    setKey k p s = { s with key := s.key.set k.val p k.isLt } := by
  unfold setKey
  split
  · rfl
  · rename_i t ht
    refine if_neg ?_
    rcases h with h | h | h | h
    · rw [ht] at h; cases h
    all_goals simp [h]

/-- A key-down on a waiting machine that is not halted resolves the wait (R147). -/
theorem setKey_resolves {s : State} {k : Key} {x : Reg} (hw : s.ws = .awaitingKey x) (hh : s.halted = false)
    (hk : s.keyDown k = false) :
    setKey k true s = resolveKey x k { s with key := s.key.set k.val true k.isLt } := by
  unfold setKey
  split
  · rename_i h; rw [hw] at h; cases h
  · rename_i t ht
    rw [hw] at ht
    cases ht
    refine if_pos ?_
    simp [hk, hh]

/-- The registers after a resolved wait: the key's number in the target, every other one as before (R147). -/
theorem getV_resolveKey (s : State) (x : Reg) (k : Key) (r : Reg) :
    (resolveKey x k s).getV r = if r = x then BitVec.ofNat 8 k.val else s.getV r :=
  State.getV_setV s x r (BitVec.ofNat 8 k.val)

/-- A resolved wait writes the target register, `pc` and the wait state, and nothing else (R147). -/
theorem resolveKey_eq (s : State) (x : Reg) (k : Key) :
    resolveKey x k s =
      { s with v := s.v.set x.val (BitVec.ofNat 8 k.val) x.isLt, pc := s.pc + 2, ws := .running } := rfl

/-! ### Loading -/

/-- A store of bytes writes memory and nothing else. -/
theorem State.storeBytes_eq (s : State) (a : Nat) (bs : List Byte) :
    s.storeBytes a bs = { s with mem := (s.storeBytes a bs).mem } := by
  induction bs generalizing s a with
  | nil => rfl
  | cons b bs ih => exact (ih (s.storeByte a b) (a + 1)).trans rfl

/-- `load` succeeds exactly on at most 0xE00 bytes, which it stores at 0x200 (R158). -/
theorem load_of_fits {bs : List Byte} {s : State} (h : bs.length ≤ 0xE00) :
    load bs s = some (s.storeBytes 0x200 bs) := if_neg (by omega)

theorem load_of_too_large {bs : List Byte} {s : State} (h : 0xE00 < bs.length) : load bs s = none := if_pos (by omega)

/-- A memory that is loaded or reset stays canonical. -/
theorem wf_load {bs : List Byte} {s t : State} (h : load bs s = some t) (hm : Memory.wf s.cfg s.mem) :
    Memory.wf t.cfg t.mem := by
  unfold load at h
  split at h
  · cases h
  · rename_i hb
    cases h
    rw [State.storeBytes_cfg]
    exact State.wf_storeBytes s bs (by omega) hm

theorem wf_resetMachine {s : State} (hm : Memory.wf s.cfg s.mem) :
    Memory.wf (resetMachine s).cfg (resetMachine s).mem := Memory.wf_restoreReserved s.cfg hm

/-! ### Sequences of transactions -/

/-- A sequence cut in two: where the first part answers `t`, the whole is the second part from `t` (R9). -/
theorem transactAll_append {as : List Transaction} {s t : State} (h : transactAll as s = .next t)
    (bs : List Transaction) : transactAll (as ++ bs) s = transactAll bs t := by
  induction as generalizing s with
  | nil => cases h; rfl
  | cons a as ih =>
    simp only [transactAll, List.cons_append] at h ⊢
    split at h
    · exact ih h
    · cases h
    · cases h

/-- One transaction as a sequence. -/
theorem transactAll_singleton {tr : Transaction} {s t : State} {r : TransactionResult}
    (h : transact tr s = .next (t, r)) : transactAll [tr] s = .next t := by
  simp [transactAll, h]

/-- The run of an infinite sequence goes on by one transaction. -/
theorem runAt_succ {ts : Nat → Transaction} {s t u : State} {n : Nat} {r : TransactionResult}
    (h : runAt ts s n = .next t) (hu : transact (ts n) t = .next (u, r)) : runAt ts s (n + 1) = .next u := by
  simp only [runAt, h]
  exact transactAll_singleton hu

/-- Each state of the run of an infinite sequence is the state after a finite one, its first `n` transactions. -/
theorem runAt_eq_transactAll {ts : Nat → Transaction} {s t : State} {n : Nat} (h : runAt ts s n = .next t) :
    transactAll ((List.range n).map ts) s = .next t := by
  induction n generalizing t with
  | zero => exact h
  | succ n ih =>
    simp only [runAt] at h
    split at h
    · rename_i u hu
      rw [List.range_succ, List.map_append, transactAll_append (ih hu)]
      exact h
    · cases h
    · cases h

end Sys2Proof.Machine
end

