-- ==== Sys2Proof/Laws/Safety.lean ====
section
/-! SUPPORT. What the terms of the statements depend on. -/

namespace Sys2Proof.Machine

/-- The fault an instruction raises depends on the parameters, the registers, `I` and `sp` alone. -/
theorem faultCause_congr {s t : State} (hc : t.cfg = s.cfg) (hv : t.v = s.v) (hi : t.i = s.i) (hp : t.sp = s.sp)
    (i : Instr) : faultCause i t = faultCause i s := by
  cases i <;> simp [faultCause, hc, hi, hp, State.getV_congr hv]

/-- Whether the latch is sound depends on the latch, `pc` and what `faultCause` reads. -/
theorem latchSound_congr {s t : State} (hf : t.fault = s.fault) (ha : t.pc = s.pc) (hc : t.cfg = s.cfg)
    (hv : t.v = s.v) (hi : t.i = s.i) (hp : t.sp = s.sp) : latchSound t ↔ latchSound s := by
  unfold latchSound
  simp only [hf, ha, faultCause_congr hc hv hi hp]

/-- The invariant says nothing of the random input (log 2). -/
theorem machineInv_rand (s : State) (b : Byte) (n : Nat) :
    MachineInv { s with rand := b, randCount := n } ↔ MachineInv s := Iff.rfl

/-- Memory after a store is the old memory with the stored bytes in it. -/
theorem byteAt_storeBytes_eq_overlay (s : State) (a : Nat) (bs : List Byte) (p : Nat) :
    (s.storeBytes a bs).byteAt p = overlay s a bs.length (fun k => bs.getD k 0) p := by
  rw [State.byteAt_storeBytes]
  unfold overlay
  split
  · rename_i h
    have : p - a < bs.length := by omega
    simp [this]
  · rfl

end Sys2Proof.Machine
end

