-- ==== Sys2Proof/Laws/Step.lean ====
section
/-! SUPPORT. What a step can do. -/

namespace Sys2Proof.Machine

/-- The six stages of a step (R79): a step that answers `t` did one of these. -/
theorem step_cases {s t : State} (h : step s = .next t) :
    (s.halted = true ∧ t = s) ∨
    (s.halted = false ∧ s.waiting = true ∧ t = s) ∨
    (s.halted = false ∧ s.waiting = false ∧ s.fetchWord = none ∧ t = s.takeFault .memoryOutOfRange none) ∨
    (s.halted = false ∧ s.waiting = false ∧ ∃ w, s.fetchWord = some w ∧
      ((decode w = none ∧ t = s.takeFault .decodeError (some w)) ∨ ∃ i, decode w = some i ∧ exec i s = .next t)) := by
  unfold step at h
  cases hh : s.halted with
  | true => rw [hh] at h; injection h with h; exact .inl ⟨rfl, h.symm⟩
  | false =>
    cases hw : s.waiting with
    | true => rw [hh, hw] at h; injection h with h; exact .inr (.inl ⟨rfl, rfl, h.symm⟩)
    | false =>
      rw [hh, hw] at h
      cases hf : s.fetchWord with
      | none => rw [hf] at h; injection h with h; exact .inr (.inr (.inl ⟨rfl, rfl, rfl, h.symm⟩))
      | some w =>
        rw [hf] at h
        refine .inr (.inr (.inr ⟨rfl, rfl, w, rfl, ?_⟩))
        cases hd : decode w with
        | none => simp only [hd] at h; injection h with h; exact .inl ⟨rfl, h.symm⟩
        | some i => simp only [hd] at h; exact .inr ⟨i, rfl, h⟩

end Sys2Proof.Machine
end

