-- ==== Sys2Proof/Tests/Slice0.lean ====
section
/-! SUPPORT. The model's own tests. The expected values come from spec/95_test_vectors.md (the vector's id is in the
docstring) or are worked out from the rule named there. Last come the witnesses: for each statement with hypotheses, a
concrete state and operands that meet them. -/

namespace Sys2Proof.Tests

open Sys2Proof Sys2Proof.Machine

/-- The constructed state with some registers written. -/
def regs (l : List (Reg × Byte)) : State := State.reset.setRegs l

/-- The constructed state with other parameters. -/
def withCfg (f : Config → Config) (s : State) : State := { s with cfg := f s.cfg }

/-- The default parameters with the quirk switches changed. -/
def withQuirks (f : Quirks → Quirks) : State → State := withCfg (fun c => { c with quirks := f c.quirks })

/-- The word at 0x300, `pc = 0x300`: the start state of a vector. -/
def at300 (s : State) (w : Nat) : State := ({ s with pc := 0x300 }).withFetchWord 16 w

/-- The state of a next outcome; the start state of any other. -/
def nextOf (s : State) : Host.Outcome State Fault Refusal → State
  | .next t => t
  | .fault _ => s
  | .refused _ => s

/-- The state after one step of a vector. -/
def vec (s : State) (w : Nat) : State := nextOf s (step (at300 s w))

/-- A step of the state as it is. -/
def stepOf (s : State) : State := nextOf s (step s)

/-- The outcome is a next state. -/
def isNext : Host.Outcome State Fault Refusal → Bool
  | .next _ => true
  | .fault _ => false
  | .refused _ => false

/-- The answer of a transaction. -/
def answer (tr : Transaction) (s : State) : Option TransactionResult :=
  match transact tr s with
  | .next (_, r) => some r
  | .fault _ => none
  | .refused _ => none

/-- The state after a transaction. -/
def after (tr : Transaction) (s : State) : State :=
  match transact tr s with
  | .next (t, _) => t
  | .fault _ => s
  | .refused _ => s

/-! ### Well-formedness: the one check and the term it refuses -/

theorem test_wellFormed_refuses_sixteen_rows : (Instr.drw 0 0 16).wellFormed = false := by decide
theorem test_wellFormed_takes_fifteen_rows : (Instr.drw 0 0 15).wellFormed = true := by decide

/-! ### Decoding: one word of each row of Table O1, its fields written out from spec/30_encoding.md R69 -/

theorem test_decode_low :
    decode 0x00E0 = some .cls ∧ decode 0x00EE = some .ret ∧ decode 0x1ABC = some (.jp 0xABC) ∧
    decode 0x2FFF = some (.call 0xFFF) ∧ decode 0x3A80 = some (.seByte 10 0x80) ∧
    decode 0x4F01 = some (.sneByte 15 0x01) ∧ decode 0x5120 = some (.seReg 1 2) ∧
    decode 0x6A42 = some (.ldByte 10 0x42) ∧ decode 0x73FE = some (.addByte 3 0xFE) := by decide

theorem test_decode_alu :
    decode 0x8120 = some (.ldReg 1 2) ∧ decode 0x8121 = some (.orReg 1 2) ∧ decode 0x8122 = some (.andReg 1 2) ∧
    decode 0x8123 = some (.xorReg 1 2) ∧ decode 0x8F14 = some (.addReg 15 1) ∧ decode 0x81F5 = some (.subReg 1 15) ∧
    decode 0x8236 = some (.shr 2 3) ∧ decode 0x8127 = some (.subn 1 2) ∧ decode 0x823E = some (.shl 2 3) := by decide

theorem test_decode_high :
    decode 0x9120 = some (.sneReg 1 2) ∧ decode 0xAFFF = some (.ldI 0xFFF) ∧ decode 0xB301 = some (.jpV0 0x301) ∧
    decode 0xC30F = some (.rnd 3 0x0F) ∧ decode 0xD12F = some (.drw 1 2 15) := by decide

theorem test_decode_misc :
    decode 0xE29E = some (.skp 2) ∧ decode 0xE2A1 = some (.sknp 2) ∧ decode 0xF307 = some (.ldVxDt 3) ∧
    decode 0xF50A = some (.ldVxK 5) ∧ decode 0xF115 = some (.ldDtVx 1) ∧ decode 0xF418 = some (.ldStVx 4) ∧
    decode 0xF11E = some (.addI 1) ∧ decode 0xF029 = some (.ldF 0) ∧ decode 0xF033 = some (.ldB 0) ∧
    decode 0xF255 = some (.storeRegs 2) ∧ decode 0xF265 = some (.loadRegs 2) := by decide

/-- R74: illegal words, one or more of each class; `0123` has no machine-code call (T-E6). -/
theorem test_decode_rejects :
    decode 0x0000 = none ∧ decode 0x0123 = none ∧ decode 0x00EF = none ∧ decode 0x5121 = none ∧
    decode 0x8008 = none ∧ decode 0x800F = none ∧ decode 0x9121 = none ∧ decode 0xE29F = none ∧
    decode 0xF0FF = none ∧ decode 0xFFFF = none := by decide

/-- The words of some instructions, written out from R69. -/
theorem test_encode_words :
    encode .cls = 0x00E0 ∧ encode (.call 0xABC) = 0x2ABC ∧ encode (.seByte 10 0x80) = 0x3A80 ∧
    encode (.shl 2 3) = 0x823E ∧ encode (.drw 1 2 15) = 0xD12F ∧ encode (.loadRegs 2) = 0xF265 := by decide

/-- The first byte of a word is its high byte (R56); two bytes are taken and the rest is given back. -/
theorem test_decodeBytes_is_big_endian :
    decodeBytes [0x6A, 0x42, 0x99] = some (.ldByte 10 0x42, [0x99]) ∧ decodeBytes [0x6A] = none ∧
    decodeTableWord 16 0x6A42 = some (.ldByte 10 0x42) := by decide

/-! ### Each row runs as the first instruction after reset -/

theorem test_first_instruction_runs_low :
    [0x00E0, 0x00EE, 0x1000, 0x2000, 0x3000, 0x4000, 0x5000, 0x6000, 0x7000, 0x8000, 0x8001, 0x8002].all
      (fun w => isNext (step (State.reset.withFetchWord 16 w))) = true := by decide

theorem test_first_instruction_runs_middle :
    [0x8003, 0x8004, 0x8005, 0x8006, 0x8007, 0x800E, 0x9000, 0xA000, 0xB000, 0xC000, 0xD000].all
      (fun w => isNext (step (State.reset.withFetchWord 16 w))) = true := by decide

theorem test_first_instruction_runs_high :
    [0xE09E, 0xE0A1, 0xF007, 0xF00A, 0xF015, 0xF018, 0xF01E, 0xF029, 0xF033, 0xF055, 0xF065].all
      (fun w => isNext (step (State.reset.withFetchWord 16 w))) = true := by decide

/-- The bytes land at the fetch address, high byte first; a halted machine is made to fetch. -/
theorem test_withFetchWord_places_word :
    (State.reset.withFetchWord 16 0x6A42).fetchWord = some 0x6A42 ∧
    (({ State.reset with pc := 0xFFF }).withFetchWord 16 0x6A42).fetchWord = some 0x6A42 ∧
    ((State.reset.takeFault .decodeError none).withFetchWord 16 0x6A42).running := by
  refine ⟨by decide, by decide, by decide, by decide⟩

/-! ### Control transfer and skips (spec/95_test_vectors.md 2.1) -/

/-- T-F1. -/
theorem test_ret_empty_stack_faults :
    (vec State.reset 0x00EE).faultPort = (3, 0x300, 0x00EE, 1) ∧ (vec State.reset 0x00EE).pc = 0x300 := by decide

/-- T-F2. -/
theorem test_ret_pops :
    let t := vec { State.reset with sp := 1, stack := State.reset.stack.set 0 0x206 } 0x00EE
    t.pc = 0x206 ∧ t.sp = 0 ∧ t.stack[0] = 0x206 := by decide

/-- T-F4. -/
theorem test_jp : (vec State.reset 0x1234).pc = 0x234 := by decide

/-- T-F7. -/
theorem test_call_pushes_last_entry :
    let t := vec { State.reset with sp := 15 } 0x2ABC
    t.stack[15] = 0x302 ∧ t.sp = 16 ∧ t.pc = 0xABC := by decide

/-- T-F8. -/
theorem test_call_full_stack_faults :
    (vec { State.reset with sp := 16 } 0x2ABC).faultPort = (2, 0x300, 0x2ABC, 1) := by decide

/-- T-F9, T-F10. -/
theorem test_seByte :
    (vec (regs [(3, 0x2A)]) 0x332A).pc = 0x304 ∧ (vec (regs [(3, 0x2B)]) 0x332A).pc = 0x302 := by decide

/-- T-F11, T-F12. -/
theorem test_sneByte :
    (vec (regs [(3, 0x2A)]) 0x432A).pc = 0x302 ∧ (vec (regs [(3, 0x2B)]) 0x432A).pc = 0x304 := by decide

/-- T-F13, T-F14. -/
theorem test_seReg :
    (vec (regs [(1, 7), (2, 7)]) 0x5120).pc = 0x304 ∧ (vec (regs [(1, 7), (2, 8)]) 0x5120).pc = 0x302 := by decide

/-- T-F16, T-F17. -/
theorem test_sneReg :
    (vec (regs [(1, 7), (2, 8)]) 0x9120).pc = 0x304 ∧ (vec (regs [(1, 7)]) 0x9110).pc = 0x302 := by decide

/-- T-F19, T-F20. -/
theorem test_jpV0 :
    (vec (regs [(0, 0x10)]) 0xB300).pc = 0x310 ∧ (vec (regs [(0, 0xFF)]) 0xBFFF).pc = 0x10FE := by decide

/-! ### Arithmetic and logic (2.2) -/

/-- T-A1. -/
theorem test_ldByte : (vec State.reset 0x6A42).getV 10 = 0x42 ∧ (vec State.reset 0x6A42).pc = 0x302 := by decide

/-- T-A2. -/
theorem test_addByte_writes_no_flag :
    let t := vec (regs [(3, 0xFF), (15, 0x55)]) 0x7302
    t.getV 3 = 0x01 ∧ t.getV 15 = 0x55 := by decide

/-- T-A3. -/
theorem test_ldReg : (vec (regs [(1, 0x99)]) 0x8010).getV 0 = 0x99 := by decide

/-- T-A4. -/
theorem test_orReg_keeps_VF :
    let t := vec (regs [(0, 0x0F), (1, 0xF0), (15, 0x55)]) 0x8011
    t.getV 0 = 0xFF ∧ t.getV 15 = 0x55 := by decide

/-- T-A5. -/
theorem test_orReg_quirk_resets_VF :
    let t := vec (withQuirks (fun q => { q with logicVfReset := true }) (regs [(0, 0x0F), (1, 0xF0), (15, 0x55)])) 0x8011
    t.getV 0 = 0xFF ∧ t.getV 15 = 0 := by decide

/-- T-A6. -/
theorem test_andReg : (vec (regs [(0, 0x3C), (1, 0x0F)]) 0x8012).getV 0 = 0x0C := by decide

/-- T-A7. -/
theorem test_xorReg : (vec (regs [(0, 0x3C), (1, 0x0F)]) 0x8013).getV 0 = 0x33 := by decide

/-- T-A8. -/
theorem test_addReg_carry :
    let t := vec (regs [(0, 0xFF), (1, 0x01)]) 0x8014
    t.getV 0 = 0 ∧ t.getV 15 = 1 := by decide

/-- T-A10: the carry, not the sum. -/
theorem test_addReg_into_VF : (vec (regs [(15, 0xFF), (1, 0x02)]) 0x8F14).getV 15 = 1 := by decide

/-- T-A12, T-A13. -/
theorem test_subReg_borrow :
    let t := vec (regs [(0, 3), (1, 5)]) 0x8015
    t.getV 0 = 0xFE ∧ t.getV 15 = 0 ∧ (vec (regs [(0, 5), (1, 5)]) 0x8015).getV 15 = 1 := by decide

/-- T-A14: the flag, not the difference. -/
theorem test_subReg_into_VF : (vec (regs [(15, 0x10), (1, 0x20)]) 0x8F15).getV 15 = 0 := by decide

/-- T-A15. -/
theorem test_shr :
    let t := vec (regs [(2, 0x05)]) 0x8206
    t.getV 2 = 0x02 ∧ t.getV 15 = 1 := by decide

/-- T-A16. -/
theorem test_shr_quirk :
    let t := vec (withQuirks (fun q => { q with shiftVy := true }) (regs [(2, 0x05), (3, 0x80)])) 0x8236
    t.getV 2 = 0x40 ∧ t.getV 15 = 0 ∧ t.getV 3 = 0x80 := by decide

/-- T-A18, T-A19. -/
theorem test_subn :
    let t := vec (regs [(0, 3), (1, 5)]) 0x8017
    let u := vec (regs [(0, 5), (1, 3)]) 0x8017
    t.getV 0 = 0x02 ∧ t.getV 15 = 1 ∧ u.getV 0 = 0xFE ∧ u.getV 15 = 0 := by decide

/-- T-A20. -/
theorem test_shl :
    let t := vec (regs [(2, 0x81)]) 0x820E
    t.getV 2 = 0x02 ∧ t.getV 15 = 1 := by decide

/-- T-A21. -/
theorem test_shl_quirk :
    let t := vec (withQuirks (fun q => { q with shiftVy := true }) (regs [(2, 0x81), (3, 0x40)])) 0x823E
    t.getV 2 = 0x80 ∧ t.getV 15 = 0 := by decide

/-- T-A22. -/
theorem test_rnd : (vec { State.reset with rand := 0xB7 } 0xC30F).getV 3 = 0x07 := by decide

/-- T-A23. -/
theorem test_rnd_zero_mask : (vec { State.reset with rand := 0xFF } 0xC300).getV 3 = 0 := by decide

/-! ### Index register and memory (2.3) -/

/-- T-I1. -/
theorem test_ldI : (vec State.reset 0xAFFF).i = 0xFFF := by decide

/-- T-I2, T-I5. -/
theorem test_addI :
    (vec { regs [(1, 3)] with i := 0xFFE } 0xF11E).i = 0x1001 ∧
    (vec { regs [(1, 2)] with i := 0xFFFF } 0xF11E).i = 0x0001 := by decide

/-- T-I3, T-I4. -/
theorem test_addI_quirk :
    let q := withQuirks (fun q => { q with fx1eVf := true })
    (vec (q { regs [(1, 3)] with i := 0xFFE }) 0xF11E).getV 15 = 1 ∧
    (vec (q { regs [(1, 3), (15, 9)] with i := 0x100 }) 0xF11E).getV 15 = 0 := by decide

/-- T-I6, T-I7. -/
theorem test_ldF : (vec (regs [(0, 0x0A)]) 0xF029).i = 0x082 ∧ (vec (regs [(0, 0xFF)]) 0xF029).i = 0x54B := by decide

/-- T-I8. -/
theorem test_ldB :
    let t := vec { regs [(0, 0x9C)] with i := 0x400 } 0xF033
    t.loadBytes 0x400 3 = [1, 5, 6] ∧ t.pc = 0x302 := by decide

/-- T-I10. -/
theorem test_ldB_out_of_range :
    let t := vec { regs [(0, 7)] with i := 0xFFE } 0xF033
    t.faultPort = (4, 0x300, 0xF033, 1) ∧ t.loadBytes 0xFFE 2 = [0, 0] := by decide

/-- T-I11, T-I12. -/
theorem test_storeRegs :
    let s := { regs [(0, 1), (1, 2), (2, 3)] with i := 0x400 }
    let t := vec s 0xF255
    let u := vec (withQuirks (fun q => { q with ldstAdvanceI := true }) s) 0xF255
    t.loadBytes 0x400 4 = [1, 2, 3, 0] ∧ t.i = 0x400 ∧ u.i = 0x403 := by decide

/-- T-I14. -/
theorem test_storeRegs_out_of_range :
    (vec { State.reset with i := 0xFFF } 0xF155).faultPort = (4, 0x300, 0xF155, 1) := by decide

/-- T-I16. -/
theorem test_loadRegs :
    let t := vec { State.reset with i := 0x400, mem := [(0x400, 1), (0x401, 5), (0x402, 6)] } 0xF265
    t.getV 0 = 1 ∧ t.getV 1 = 5 ∧ t.getV 2 = 6 ∧ t.i = 0x400 := by decide

/-- T-I15. -/
theorem test_loadRegs_out_of_range :
    (vec { State.reset with i := 0x1000 } 0xF065).faultPort = (4, 0x300, 0xF065, 1) := by decide

/-! ### Display (2.4) -/

/-- T-D1, one of the cells. -/
theorem test_cls :
    Framebuffer.cell (vec { State.reset with fb := Framebuffer.flip Framebuffer.clear 63 31 } 0x00E0).fb 63 31 = false := by
  decide

/-- T-D4: wrapped, not clipped. -/
theorem test_drw_wraps :
    let t := vec { regs [(0, 62), (1, 30)] with i := 0x400, mem := [(0x400, 0xFF), (0x401, 0xFF)] } 0xD012
    Framebuffer.cell t.fb 62 30 = true ∧ Framebuffer.cell t.fb 5 31 = true ∧ Framebuffer.cell t.fb 6 31 = false ∧
    Framebuffer.cell t.fb 61 30 = false ∧ Framebuffer.cell t.fb 0 0 = false ∧ t.getV 15 = 0 := by decide

/-- T-D5 on a cell that is on: bit 7 is column `x0`, and the collision sets `VF` (R122). -/
theorem test_drw_collision :
    let t := vec { regs [(0, 0x85), (1, 0x45)] with
      i := 0x400, mem := [(0x400, 0x80)], fb := Framebuffer.flip Framebuffer.clear 5 5 } 0xD011
    Framebuffer.cell t.fb 5 5 = false ∧ t.getV 15 = 1 := by decide

/-! ### Keypad and timers (2.5) -/

/-- T-K1, T-K5. -/
theorem test_skp :
    (vec { regs [(2, 5)] with key := State.reset.key.set 5 true } 0xE29E).pc = 0x304 ∧
    (vec (regs [(2, 0x15)]) 0xE29E).faultPort = (5, 0x300, 0xE29E, 1) := by decide

/-- T-K6. -/
theorem test_skp_masked :
    (vec (withCfg (fun c => { c with keyIndexPolicy := .maskLowNibble })
      { regs [(2, 0x15)] with key := State.reset.key.set 5 true }) 0xE29E).pc = 0x304 := by decide

/-- T-K3, T-K4. -/
theorem test_sknp :
    (vec { regs [(2, 5)] with key := State.reset.key.set 5 true } 0xE2A1).pc = 0x302 ∧
    (vec (regs [(0, 0xF)]) 0xE0A1).pc = 0x304 := by decide

/-- T-K8. -/
theorem test_ldVxDt : (vec { State.reset with dt := 0x3C } 0xF307).getV 3 = 0x3C := by decide

/-- T-K9. -/
theorem test_ldVxK :
    (vec State.reset 0xF50A).ws = .awaitingKey 5 ∧ (vec State.reset 0xF50A).pc = 0x300 := by decide

/-- T-K10. -/
theorem test_ldDtVx : (vec (regs [(1, 0x3C)]) 0xF115).dt = 0x3C := by decide

/-- T-K11. -/
theorem test_ldStVx : (vec (regs [(4, 2)]) 0xF418).soundTimerPort = 2 := by decide

/-! ### The step (2.6) -/

/-- T-E1, T-E2. -/
theorem test_fetch_at_the_top :
    let t := stepOf { State.reset with pc := 0xFFE, mem := [(0xFFE, 0x6A), (0xFFF, 0x01)] }
    t.getV 10 = 1 ∧ t.pc = 0x1000 ∧ (stepOf { State.reset with pc := 0xFFF }).faultPort = (4, 0xFFF, 0, 0) := by decide

/-- T-E4: an odd pc. -/
theorem test_fetch_odd_pc :
    let t := stepOf { State.reset with pc := 0x301, mem := [(0x301, 0x6A), (0x302, 0x01)] }
    t.getV 10 = 1 ∧ t.pc = 0x303 := by decide

/-- T-E5, and how a machine with no program loaded starts (spec/70_reset_and_hazards.md R160). -/
theorem test_illegal_word :
    (vec State.reset 0x0000).faultPort = (1, 0x300, 0, 1) ∧ (stepOf State.reset).faultPort = (1, 0x200, 0, 1) := by
  decide

/-! ### The other transactions (2.7) -/

/-- T-X1, T-X2. -/
theorem test_tick :
    (after .tick { State.reset with dt := 1, st := 0 }).dt = 0 ∧
    (after .tick { State.reset with dt := 1, st := 0 }).st = 0 := by decide

/-- T-X3. -/
theorem test_tick_halted :
    (after .tick ({ State.reset with dt := 5, st := 5 }.takeFault .decodeError none)).dt = 5 := by decide

/-- T-X4, T-X8. -/
theorem test_setKey_resolves :
    let t := after (.setKey 7 true) { State.reset with ws := .awaitingKey 5 }
    let u := after (.setKey 0xC true) { State.reset with ws := .awaitingKey 15 }
    t.getV 5 = 7 ∧ t.pc = 0x202 ∧ t.ws = .running ∧ t.keyDown 7 = true ∧ u.getV 15 = 0x0C := by decide

/-- T-X5, T-X6, T-X7. -/
theorem test_setKey_plain :
    let s := { State.reset with ws := .awaitingKey 5, key := State.reset.key.set 7 true }
    (after (.setKey 7 true) s).ws = .awaitingKey 5 ∧ (after (.setKey 7 false) s).ws = .awaitingKey 5 ∧
    (after (.setKey 7 false) s).keyDown 7 = false ∧ (after (.setKey 2 true) State.reset).pc = 0x200 := by decide

/-- Two bytes loaded, and T-X11: none. -/
theorem test_load :
    (after (.load [0x60, 0x05]) State.reset).mem = [(0x200, 0x60), (0x201, 0x05)] ∧
    (after (.load []) State.reset).mem = [] ∧ answer (.load []) State.reset = some .ok := by decide

/-- T-X9, T-X10: the longest program that fits, and one byte more. -/
theorem test_load_limit :
    (load (List.replicate 0xE00 0x12) State.reset).isSome = true ∧
    load (List.replicate 0xE01 0x12) State.reset = none := by
  constructor
  · rw [load_of_fits (by rw [List.length_replicate])]; rfl
  · exact load_of_too_large (by rw [List.length_replicate]; decide)

/-- T-X12. -/
theorem test_reset :
    let s := { regs [(3, 9)] with
      pc := 0x344
      fault := { code := some .memoryOutOfRange, addr := 0x344, word := 0xF155, wordValid := true }
      mem := [(0x050, 0xAA), (0x400, 0x77)]
      key := State.reset.key.set 1 true }
    let t := after .reset s
    t.getV 3 = 0 ∧ t.pc = 0x200 ∧ t.faultPort = (0, 0, 0, 0) ∧ t.byteAt 0x050 = 0xF0 ∧ t.byteAt 0x400 = 0x77 ∧
    t.keyDown 1 = true := by decide

/-- The four answers of a step (R79). -/
theorem test_step_answers :
    answer (.step 0) (at300 State.reset 0x6A42) = some .ran ∧
    answer (.step 0) (at300 State.reset 0x0000) = some .faulted ∧
    answer (.step 0) (State.reset.takeFault .stackOverflow none) = some .halted ∧
    answer (.step 0) { State.reset with ws := .awaitingKey 3 } = some .waiting := by decide

/-- The byte of the transaction is the one `Cxnn` reads, and the environment's own bytes are left (log 2). -/
theorem test_step_rand_is_the_transactions :
    (after (.step 0xB7) (at300 { State.reset with rand := 0 } 0xC30F)).getV 3 = 0x07 ∧
    (after (.step 0xB7) (at300 { State.reset with rand := 0 } 0xC30F)).rand = 0 := by decide

/-! ### Witnesses: the hypotheses of each statement met together, each clause at a boundary -/

/-- `LD VA, 1` at the last word of memory. -/
def atTop : State := { State.reset with pc := 0xFFE, mem := [(0xFFE, 0x6A), (0xFFF, 0x01)] }

/-- A halted machine. -/
def haltedMachine : State := State.reset.takeFault .decodeError (some 0)

/-- A machine waiting for a key with target `V5`. -/
def waitingMachine : State := { State.reset with ws := .awaitingKey 5 }

theorem test_witness_DecodeOfEncode : (Instr.drw 15 0 15).wellFormed = true ∧ encode (.drw 15 0 15) = 0xDF0F := by decide

theorem test_witness_EncodeOfDecode : decode 0xDF0F = some (.drw 15 0 15) ∧ decode 0xF065 = some (.loadRegs 0) := by decide

theorem test_witness_WordSelectsItsRowOfTableO1 :
    decode 0x800E = some (.shl 0 0) ∧ (0x8FFE : Word) &&& (tableO1 (.shl 0 0)).2 = (tableO1 (.shl 0 0)).1 := by decide

theorem test_witness_IllegalWordsByClass :
    illegalWord 0x00E1 ∧ illegalWord 0x5FFF ∧ illegalWord 0x800F ∧ illegalWord 0x9001 ∧ illegalWord 0xE09D ∧
    illegalWord 0xFFFF ∧ ¬ illegalWord 0x00E0 ∧ ¬ illegalWord 0x1000 ∧ ¬ illegalWord 0xF065 := by
  simp [illegalWord]

/-- The first and the last byte of the font, and the bytes beside it (R156). -/
theorem test_witness_ConstructionValues :
    State.reset.byteAt 0x04F = 0 ∧ State.reset.byteAt 0x050 = 0xF0 ∧ State.reset.byteAt 0x09F = 0x80 ∧
    State.reset.byteAt 0x0A0 = 0 := by decide

/-- The addresses where the two clauses meet. -/
theorem test_witness_ResetTransactionValues :
    let t := resetMachine { State.reset with mem := [(0x1FF, 1), (0x200, 2)] }
    t.byteAt 0x1FF = 0 ∧ t.byteAt 0x200 = 2 := by decide

theorem test_witness_LoadWritesProgramAt200 :
    (List.replicate 0xE00 (0x12 : Byte)).length ≤ 0xE00 ∧ 0xE00 < (List.replicate 0xE01 (0x12 : Byte)).length := by
  exact ⟨by rw [List.length_replicate], by rw [List.length_replicate]; decide⟩

theorem test_witness_StepRunsDecodedInstruction :
    atTop.running ∧ atTop.pc.toNat ≤ 0xFFE ∧
    decode (wordOfBytes (atTop.byteAt atTop.pc.toNat) (atTop.byteAt (atTop.pc.toNat + 1))) = some (.ldByte 10 1) := by
  refine ⟨⟨by decide, by decide⟩, by decide, by decide⟩

theorem test_witness_HaltedAndWaitingStepsChangeNothing :
    haltedMachine.halted = true ∧ waitingMachine.halted = false ∧ waitingMachine.waiting = true := by decide

theorem test_witness_FetchAndDecodeFaultsWriteOnlyLatch :
    State.running { State.reset with pc := 0xFFF } ∧ 0xFFF ≤ (0xFFF : Word).toNat := by
  refine ⟨⟨by decide, by decide⟩, by decide⟩

/-- The zero word at 0x200, which matches no row. -/
theorem test_witness_IllegalWordRaisesDecodeError :
    State.reset.running ∧ State.reset.pc.toNat ≤ 0xFFE ∧
    wordOfBytes (State.reset.byteAt State.reset.pc.toNat) (State.reset.byteAt (State.reset.pc.toNat + 1)) = 0x0000 ∧
    decode 0x0000 = none ∧ (∀ j : Instr, (0x0000 : Word) &&& (tableO1 j).2 ≠ (tableO1 j).1) ∧
    (0x6A01 : Word) &&& (tableO1 (.ldByte 0 0)).2 = (tableO1 (.ldByte 0 0)).1 := by
  refine ⟨⟨by decide, by decide⟩, by decide, by decide, by decide, fun j => by cases j <;> simp [tableO1], by decide⟩

/-- The three clauses: an illegal word, an instruction that faults, one that does not. -/
theorem test_witness_NextPcFollowsTablePC1 :
    (∃ t, atTop.running ∧ step atTop = .next t ∧ t.pc = 0x1000) ∧
    (∃ t, step State.reset = .next t ∧ t.pc = 0x200) ∧
    (∃ t, step (at300 State.reset 0x00EE) = .next t ∧ t.pc = 0x300) := by
  refine ⟨⟨_, ⟨by decide, by decide⟩, rfl, by decide⟩, ⟨_, rfl, by decide⟩, ⟨_, rfl, by decide⟩⟩

theorem test_witness_StepWritesTimersOnlyByFx15Fx18 :
    (∃ t, step (at300 (regs [(1, 0x3C)]) 0xF115) = .next t ∧ t.dt ≠ 0) ∧
    (∃ t, step (at300 (regs [(1, 0x3C)]) 0xF118) = .next t ∧ t.st ≠ 0) := by
  refine ⟨⟨_, rfl, by decide⟩, ⟨_, rfl, by decide⟩⟩

theorem test_witness_OnlyRndReadsRand : ∀ x nn, Instr.andReg 0 1 ≠ .rnd x nn := by simp

theorem test_witness_OnlyQuirkInstructionsReadQuirks :
    (∀ x y, Instr.addReg 0 1 ≠ .orReg x y ∧ Instr.addReg 0 1 ≠ .andReg x y ∧ Instr.addReg 0 1 ≠ .xorReg x y ∧
      Instr.addReg 0 1 ≠ .shr x y ∧ Instr.addReg 0 1 ≠ .shl x y) ∧
    (∀ x, Instr.addReg 0 1 ≠ .addI x ∧ Instr.addReg 0 1 ≠ .storeRegs x ∧ Instr.addReg 0 1 ≠ .loadRegs x) ∧
    ∃ t r, transact .tick State.reset = .next (t, r) := by
  refine ⟨by simp, by simp, _, _, rfl⟩

/-- Each fault of Table G1 that an instruction raises, and an instruction beside each that raises none. -/
theorem test_witness_FaultsArePreciseAndLatched :
    faultCause .ret State.reset = some .stackUnderflow ∧ faultCause .ret { State.reset with sp := 1 } = none ∧
    faultCause (.call 0) { State.reset with sp := 16 } = some .stackOverflow ∧
    faultCause (.call 0) { State.reset with sp := 15 } = none ∧
    faultCause (.drw 0 0 2) { State.reset with i := 0xFFF } = some .memoryOutOfRange ∧
    faultCause (.drw 0 0 1) { State.reset with i := 0xFFF } = none ∧
    faultCause (.drw 0 0 0) { State.reset with i := 0xFFFF } = none ∧
    faultCause (.skp 0) (regs [(0, 16)]) = some .keyIndexOutOfRange ∧ faultCause (.sknp 0) (regs [(0, 15)]) = none := by
  decide

/-- Each cause at its boundary: the fetch, `Dxyn`, `Fx33`, `Fx55`, `Fx65`; and the word at 0xFFE, which is fetched. -/
theorem test_witness_MemoryOutOfRangeExactly :
    (vec { State.reset with i := 0xFFE } 0xD013).faultPort.1 = 4 ∧ (vec { State.reset with i := 0xFFD } 0xD013).faultPort.1 = 0 ∧
    (vec { State.reset with i := 0xFFE } 0xF033).faultPort.1 = 4 ∧ (vec { State.reset with i := 0xFFD } 0xF033).faultPort.1 = 0 ∧
    (vec { State.reset with i := 0xFFF } 0xF165).faultPort.1 = 4 ∧ (vec { State.reset with i := 0xFFE } 0xF165).faultPort.1 = 0 ∧
    (stepOf { State.reset with pc := 0xFFF }).faultPort.1 = 4 ∧ (stepOf atTop).faultPort.1 = 0 := by decide

theorem test_witness_StackHoldsSixteenCalls :
    State.reset.sp = 0 ∧ State.reset.halted = false ∧ (List.replicate 16 (0x200 : BitVec 12)).length ≤ 16 ∧
    (nextOf State.reset (callAll (List.replicate 16 0x200) State.reset)).sp = 16 ∧
    (∃ t, exec (.call 0) { State.reset with sp := 16 } = .next t ∧ t.fault.code = some .stackOverflow) := by
  refine ⟨by decide, by decide, by decide, by decide, _, rfl, by decide⟩

theorem test_witness_HaltedMachineFollowsTableH1 :
    haltedMachine.halted = true ∧ answer (.load [1]) haltedMachine = some .ok ∧
    (after (.setKey 3 true) haltedMachine).keyDown 3 = true := by decide

theorem test_witness_TicksCountDownToZero :
    State.halted { State.reset with dt := 2, st := 1 } = false ∧
    (tick (tick { State.reset with dt := 2, st := 1 })).dt = 0 ∧
    (∃ t, exec (.ldDtVx 1) (regs [(1, 5)]) = .next t ∧ t.dt ≠ (regs [(1, 5)]).dt) := by
  refine ⟨by decide, by decide, _, rfl, by decide⟩

theorem test_witness_KeyDownResolvesWait :
    waitingMachine.ws = .awaitingKey 5 ∧ waitingMachine.halted = false ∧ waitingMachine.keyDown 15 = false ∧
    (setKey 15 true waitingMachine).getV 5 = 15 := by decide

/-- The three premises, each alone: a running machine, a release, a repeat. -/
theorem test_witness_OnlyKeyDownEndsWait :
    State.reset.waiting = false ∧ (waitingMachine.waiting = true ∧ waitingMachine.keyDown 0 = false) ∧
    ({ waitingMachine with key := waitingMachine.key.set 0 true }).keyDown 0 = true := by decide

theorem test_witness_LogicInstructions :
    (Instr.xorReg 15 1, xor) ∈ [(Instr.orReg 15 1, or), (Instr.andReg 15 1, and), (Instr.xorReg 15 1, xor)] ∧
    (withQuirks (fun q => { q with logicVfReset := true }) State.reset).cfg.quirks.logicVfReset = true ∧
    State.reset.cfg.quirks.logicVfReset = false := by
  refine ⟨by simp, by decide, by decide⟩

/-- The destination beside `VF`, for the four statements that ask it. -/
theorem test_witness_flagged_results :
    (14 : Reg) ≠ 15 ∧ (vec (regs [(14, 0xFF), (1, 1)]) 0x8E14).getV 14 = 0 ∧
    (vec (regs [(14, 0), (1, 1)]) 0x8E15).getV 14 = 0xFF ∧ (vec (regs [(14, 1), (1, 0)]) 0x8E17).getV 14 = 0xFF ∧
    (vec (regs [(14, 0xFF)]) 0x8E0E).getV 14 = 0xFE := by decide

theorem test_witness_CallPushesReturnAddress :
    (∃ t, exec (.call 0xABC) { State.reset with sp := 15 } = .next t ∧ t.sp.val = 16) ∧
    (∃ t, exec (.call 0xABC) { State.reset with sp := 16 } = .next t ∧ t.fault.code = some .stackOverflow) := by
  refine ⟨⟨_, rfl, by decide⟩, ⟨_, rfl, by decide⟩⟩

theorem test_witness_ReturnPopsReturnAddress :
    (∃ t, exec .ret { State.reset with sp := 1 } = .next t ∧ t.sp.val = 0) ∧
    (∃ t, exec .ret State.reset = .next t ∧ t.fault.code = some .stackUnderflow) := by
  refine ⟨⟨_, rfl, by decide⟩, ⟨_, rfl, by decide⟩⟩

/-- V-S3 at the deepest level. -/
theorem test_witness_ReturnUndoesCall :
    State.sp { State.reset with sp := 15 } = 15 ∧
    (∃ t u, exec (.call 0xABC) { State.reset with sp := 15 } = .next t ∧ exec .ret t = .next u ∧ u.pc = 0x202) := by
  refine ⟨by decide, _, _, rfl, rfl, by decide⟩

theorem test_witness_SkipOnImmediate :
    (regs [(3, 0xFF)]).getV 3 = 0xFF ∧ (regs [(3, 0xFF)]).getV 3 ≠ 0xFE := by decide

theorem test_witness_SkipOnRegisters :
    (regs [(1, 7), (2, 8)]).getV 1 = (regs [(1, 7), (2, 8)]).getV 1 ∧
    (regs [(1, 7), (2, 8)]).getV 1 ≠ (regs [(1, 7), (2, 8)]).getV 2 := by decide

/-- The flag at 0xFFF and one above it (R116). -/
theorem test_witness_AddToIndex :
    let q := withQuirks (fun q => { q with fx1eVf := true })
    (vec (q { regs [(1, 1)] with i := 0xFFE }) 0xF11E).getV 15 = 0 ∧
    (vec (q { regs [(1, 2)] with i := 0xFFE }) 0xF11E).getV 15 = 1 ∧
    State.reset.cfg.quirks.fx1eVf = false := by decide

theorem test_witness_StoreDecimalDigits :
    (vec { regs [(0, 0xFF)] with i := 0xFFD } 0xF033).loadBytes 0xFFD 3 = [2, 5, 5] ∧
    (vec { regs [(0, 0xFF)] with i := 0xFFE } 0xF033).faultPort.1 = 4 := by decide

/-- T-I13, and one above. -/
theorem test_witness_StoreRegisterRange :
    (vec { regs [(0, 0xAA)] with i := 0xFFF } 0xF055).byteAt 0xFFF = 0xAA ∧
    (vec { regs [(0, 0xAA)] with i := 0xFFF } 0xF155).faultPort.1 = 4 := by decide

theorem test_witness_LoadRegisterRange :
    (vec { State.reset with i := 0xFFE, mem := [(0xFFE, 1), (0xFFF, 2)] } 0xF165).getV 1 = 2 ∧
    (vec { State.reset with i := 0xFFE, mem := [(0xFFE, 1), (0xFFF, 2)] } 0xF265).getV 0 = 0 := by decide

/-- At 0x300, a store to `I = 0x302`: both bytes of the next word. -/
def selfModifying : State := { regs [(0, 0x6A), (1, 0x42)] with pc := 0x300, i := 0x302 }

/-- `Fx55` with `X = 1` writes `LD VA, 0x42` over the next word; `Fx33` at `I = 0x303` writes the
hundreds digit of 200 over its low byte; `load` writes the word at `pc`. -/
theorem test_witness_StoreIsSeenByNextFetch :
    let m := overlay selfModifying 0x302 2 (fun k => selfModifying.getV (Fin.ofNat 16 k))
    let u := { regs [(0, 200)] with pc := 0x300, i := 0x303, mem := [(0x302, 0x6A)] }
    let n := overlay u 0x303 3 (fun k => BitVec.ofNat 8 ([200 / 100, 200 / 10 % 10, 200 % 10].getD k 0))
    let l := overlay State.reset 0x200 2 (fun k => ([0x6A, 0x42] : List Byte).getD k 0)
    (selfModifying.halted = false ∧ selfModifying.waiting = false ∧ selfModifying.pc.toNat + 3 ≤ 0xFFF) ∧
    decode (wordOfBytes (m 0x302) (m 0x303)) = some (.ldByte 10 0x42) ∧
    (u.halted = false ∧ u.waiting = false ∧ u.i.toNat + 2 ≤ 0xFFF) ∧
    decode (wordOfBytes (n 0x302) (n 0x303)) = some (.ldByte 10 2) ∧
    decode (wordOfBytes (l 0x200) (l 0x201)) = some (.ldByte 10 0x42) := by
  refine ⟨by decide, by decide, by decide, by decide, by decide⟩

/-- No rows at all, and a sprite that ends on the last byte of memory; a covered cell that was off (first draw). -/
theorem test_witness_DrawInvertsCoveredCells :
    let s := { State.reset with i := 0xFFF, mem := [(0xFFF, 0x80)] }
    ((0 : Nat) ≤ 15 ∧ (0 : Nat) = 0) ∧ s.i.toNat + 1 - 1 ≤ 0xFFF ∧ spriteCovers s 0 1 1 0 0 ∧
    Framebuffer.cell s.fb 0 0 = false := by
  refine ⟨by decide, by decide, ⟨0, by decide, 0, by decide, by decide, by decide, by decide⟩, by decide⟩

/-- V-S2. -/
theorem test_witness_DrawTwiceRestoresScreen :
    let s := { State.reset with i := 0xFFF, mem := [(0xFFF, 0x80)] }
    (0 : Reg) ≠ 15 ∧ (1 : Reg) ≠ 15 ∧
    ∃ t u, exec (.drw 0 1 1) s = .next t ∧ exec (.drw 0 1 1) t = .next u ∧
      Framebuffer.cell u.fb 0 0 = false ∧ u.getV 15 = 1 := by
  refine ⟨by decide, by decide, _, _, rfl, rfl, by decide, by decide⟩

/-- The two policies at 15, 16 and 0x1F. -/
theorem test_witness_KeySkips :
    let mask := withCfg (fun c => { c with keyIndexPolicy := .maskLowNibble })
    (regs [(0, 15)]).keyOperand 0 = some 15 ∧ (regs [(0, 16)]).keyOperand 0 = none ∧
    (mask (regs [(0, 16)])).keyOperand 0 = some 0 ∧ (mask (regs [(0, 0x1F)])).keyOperand 0 = some 15 := by decide

theorem test_witness_PortsShowTheState :
    waitingMachine.waitingPort = true ∧ State.reset.waitingPort = false ∧
    haltedMachine.faultPort = (1, 0x200, 0, 1) ∧ State.reset.faultPort = (0, 0, 0, 0) ∧
    ([.stackOverflow, .stackUnderflow, .memoryOutOfRange, .keyIndexOutOfRange].map
      (fun f => (State.reset.takeFault f none).faultPort.1)) = [2, 3, 4, 5] := by decide

/-- Two canonical memories, the second written in another order, read alike. -/
theorem test_witness_CanonicalMemoryIsUnique :
    let c := Config.default
    let m : Memory := [(0x200, 1), (0xFFF, 2)]
    let n := Memory.write c (Memory.write c (Memory.write c [] 0xFFF 2) 0x200 1) 0x050 0xF0
    Memory.wf c m ∧ Memory.wf c n ∧ m = n := by decide

/-- A state that meets the invariant and steps, and a halted one. -/
theorem test_witness_StepKeepsInvariant :
    MachineInv atTop ∧ (∃ t, step atTop = .next t) ∧ MachineInv haltedMachine := by
  refine ⟨⟨by decide, rfl, by decide, by decide⟩, ⟨_, rfl⟩, ⟨by decide, ⟨rfl, by decide, rfl⟩, by decide, by decide⟩⟩

/-- The start state, and an infinite sequence of ticks from it (R9). -/
theorem test_witness_TransactionsKeepInvariant :
    MachineInv waitingMachine ∧ ∃ t, runAt (fun _ => .tick) { waitingMachine with dt := 3 } 2 = .next t ∧ t.dt = 1 := by
  refine ⟨⟨by decide, rfl, by decide, by decide⟩, _, rfl, by decide⟩

/-- A key-down and then a step, in an infinite sequence that repeats them: the wait ends, then a step runs (R9). -/
theorem test_runAt_interleaves :
    let ts : Nat → Transaction := fun n => if n % 2 = 0 then .setKey 7 true else .step 0
    (nextOf State.reset (runAt ts waitingMachine 1)).getV 5 = 7 ∧
    (nextOf State.reset (runAt ts waitingMachine 1)).pc = 0x202 ∧
    (nextOf State.reset (runAt ts waitingMachine 2)).faultPort = (1, 0x202, 0, 1) := by decide

end Sys2Proof.Tests
end

-- ==== The invariant along transactions ====
section
/-! The invariant along every sequence of transactions (spec/00_scope.md R8, R9): what an instruction answers (it
raises the fault of Table G1, or it completes), and what each transaction keeps. -/

namespace Sys2Proof

/-! ### Every decoded instruction is well-formed -/

/-- The row count of a decoded `Dxyn` is a 4-bit field, and no other operand needs a check (R67, R70). -/
theorem wellFormed_of_decode {w : Word} {i : Instr} (h : decode w = some i) : i.wellFormed = true := by
  obtain ⟨r, hr, -, rfl⟩ := decode_eq_some h
  have hall : ∀ r ∈ opTable, (r.build w).wellFormed = true := by
    simp [opTable, rowsLow, rowsAlu, rowsHigh, rowsMisc, Instr.wellFormed, fieldN_le]
  exact hall r hr

open Laws.RoundTrip in
/-- The word of a well-formed instruction decodes to it: the round trips of Laws/RoundTrip, joined (R68, R71). -/
theorem decode_encode : ∀ {i : Instr}, i.wellFormed = true → decode (encode i) = some i
  | .cls => cls
  | .ret => ret
  | .jp nnn => jp nnn
  | .call nnn => call nnn
  | .seByte x nn => seByte x nn
  | .sneByte x nn => sneByte x nn
  | .seReg x y => seReg x y
  | .ldByte x nn => ldByte x nn
  | .addByte x nn => addByte x nn
  | .ldReg x y => ldReg x y
  | .orReg x y => orReg x y
  | .andReg x y => andReg x y
  | .xorReg x y => xorReg x y
  | .addReg x y => addReg x y
  | .subReg x y => subReg x y
  | .shr x y => shr x y
  | .subn x y => subn x y
  | .shl x y => shl x y
  | .sneReg x y => sneReg x y
  | .ldI nnn => ldI nnn
  | .jpV0 nnn => jpV0 nnn
  | .rnd x nn => rnd x nn
  | .drw x y n => drw x y n
  | .skp x => skp x
  | .sknp x => sknp x
  | .ldVxDt x => ldVxDt x
  | .ldVxK x => ldVxK x
  | .ldDtVx x => ldDtVx x
  | .ldStVx x => ldStVx x
  | .addI x => addI x
  | .ldF x => ldF x
  | .ldB x => ldB x
  | .storeRegs x => storeRegs x
  | .loadRegs x => loadRegs x

end Sys2Proof

namespace Sys2Proof.Machine

/-! ### What an instruction answers (R84, R85, R130 Table G1) -/

/-- An instruction with a cause of Table G1 raises that fault, and nothing else happens. -/
theorem exec_of_faultCause_some {i : Instr} {s : State} {f : EngineFault} (h : faultCause i s = some f) :
    exec i s = raise f i s := by
  cases i
  case ret =>
    obtain ⟨hsp, hf⟩ := Option.ite_none_right_eq_some.1 h
    cases hf
    simp [exec, execRet, State.pop_eq_none.2 hsp]
  case call nnn =>
    obtain ⟨hsp, hf⟩ := Option.ite_none_right_eq_some.1 h
    cases hf
    simp [exec, execCall, State.push_eq_none.2 hsp]
  case drw | ldB | storeRegs | loadRegs =>
    obtain ⟨hout, hf⟩ := Option.ite_none_right_eq_some.1 h
    cases hf
    exact if_pos hout
  case skp x =>
    obtain ⟨hkey, hf⟩ := Option.ite_none_right_eq_some.1 h
    cases hf
    simp [exec, execSkp, State.keyOperand_eq_none.2 hkey]
  case sknp x =>
    obtain ⟨hkey, hf⟩ := Option.ite_none_right_eq_some.1 h
    cases hf
    simp [exec, execSknp, State.keyOperand_eq_none.2 hkey]
  all_goals cases h

/-- What every instruction that completes keeps: the parameters and the latch, the canonical form of memory, and
either the wait state or (`Fx0A`) the `pc`. -/
structure Completes (s t : State) : Prop where
  cfg : t.cfg = s.cfg
  fault : t.fault = s.fault
  mem : Memory.wf s.cfg s.mem → Memory.wf s.cfg t.mem
  wait : t.ws = s.ws ∨ t.pc = s.pc

/-- An instruction that stores nothing and does not wait. -/
theorem Completes.of_eq {s t : State} (hc : t.cfg = s.cfg) (hf : t.fault = s.fault) (hm : t.mem = s.mem)
    (hw : t.ws = s.ws) : Completes s t :=
  ⟨hc, hf, fun h => hm ▸ h, .inl hw⟩

/-- An instruction that stores bytes inside 0x000..0xFFF. -/
theorem Completes.storeBytes {s t : State} {a : Nat} {bs : List Byte} (ha : a + bs.length ≤ 0x1000)
    (hc : t.cfg = s.cfg) (hf : t.fault = s.fault) (hm : t.mem = (s.storeBytes a bs).mem) (hw : t.ws = s.ws) :
    Completes s t :=
  ⟨hc, hf, fun h => hm ▸ State.wf_storeBytes s bs ha h, .inl hw⟩

/-- A logic result is written under either value of `QUIRK_LOGIC_VF_RESET`. -/
theorem Completes.writeLogic (s : State) (x : Reg) (b : Byte) : Completes s (s.writeLogic x b) := by
  unfold State.writeLogic
  split <;> exact .of_eq rfl rfl rfl rfl

/-- An instruction without a cause of Table G1 completes. -/
theorem exec_of_faultCause_none {i : Instr} {s : State} (h : faultCause i s = none) :
    ∃ t, exec i s = .next t ∧ Completes s t := by
  cases i
  case orReg | andReg | xorReg => exact ⟨_, rfl, .writeLogic _ _ _⟩
  case ldVxK => exact ⟨_, rfl, rfl, rfl, id, .inr rfl⟩
  case addI x =>
    refine ⟨_, rfl, ?_⟩
    split <;> exact .of_eq rfl rfl rfl rfl
  case ret =>
    have hpop : s.pop ≠ none := fun e => by simp [faultCause, State.pop_eq_none.1 e] at h
    obtain ⟨⟨w, u⟩, hu⟩ := Option.ne_none_iff_exists'.1 hpop
    refine ⟨u.jump w, by simp only [exec, execRet, hu], ?_⟩
    obtain ⟨-, -, rfl⟩ := State.pop_eq_some hu
    exact .of_eq rfl rfl rfl rfl
  case call nnn =>
    have hpush : s.push (s.pc + 2) ≠ none := fun e => by simp [faultCause, State.push_eq_none.1 e] at h
    obtain ⟨u, hu⟩ := Option.ne_none_iff_exists'.1 hpush
    refine ⟨u.jump (zextAddr nnn), by simp only [exec, execCall, hu], ?_⟩
    obtain ⟨-, rfl⟩ := State.push_eq_some hu
    exact .of_eq rfl rfl rfl rfl
  case skp x =>
    have hkey : s.keyOperand x ≠ none := fun e => by simp [faultCause, State.keyOperand_eq_none.1 e] at h
    obtain ⟨k, hk⟩ := Option.ne_none_iff_exists'.1 hkey
    exact ⟨s.skipIf (s.keyDown k), by simp only [exec, execSkp, hk], .of_eq rfl rfl rfl rfl⟩
  case sknp x =>
    have hkey : s.keyOperand x ≠ none := fun e => by simp [faultCause, State.keyOperand_eq_none.1 e] at h
    obtain ⟨k, hk⟩ := Option.ne_none_iff_exists'.1 hkey
    exact ⟨s.skipIf (!s.keyDown k), by simp only [exec, execSknp, hk], .of_eq rfl rfl rfl rfl⟩
  case drw x y n =>
    have hin : ¬ (0 < n ∧ s.i.toNat + n - 1 > 0xFFF) := by simpa [faultCause] using h
    exact ⟨_, if_neg hin, .of_eq rfl rfl rfl rfl⟩
  case ldB x =>
    have hin : ¬ s.i.toNat + 2 > 0xFFF := by simpa [faultCause] using h
    have hfit : s.i.toNat + (decimalDigits (s.getV x)).length ≤ 0x1000 := by
      simp only [decimalDigits, List.length_cons, List.length_nil]
      omega
    exact ⟨_, if_neg hin, .storeBytes hfit (by simp) (by simp) rfl (by simp)⟩
  case storeRegs x =>
    have hin : ¬ s.i.toNat + x.val > 0xFFF := by simpa [faultCause] using h
    have hfit : s.i.toNat + (s.bytesUpTo x).length ≤ 0x1000 := by
      rw [State.bytesUpTo_length]
      omega
    exact ⟨_, if_neg hin, .storeBytes hfit (by simp) (by simp) rfl (by simp)⟩
  case loadRegs x =>
    have hin : ¬ s.i.toNat + x.val > 0xFFF := by simpa [faultCause] using h
    exact ⟨_, if_neg hin, .of_eq (by simp) (by simp) (by simp) (by simp)⟩
  all_goals exact ⟨_, rfl, .of_eq rfl rfl rfl rfl⟩

/-- An instruction raises its fault of Table G1, or it completes. -/
theorem exec_cases (i : Instr) (s : State) :
    (∃ f, faultCause i s = some f ∧ exec i s = .next (s.takeFault f (some (encode i)))) ∨
    (faultCause i s = none ∧ ∃ t, exec i s = .next t ∧ Completes s t) := by
  cases h : faultCause i s with
  | some f => exact .inl ⟨f, rfl, exec_of_faultCause_some h⟩
  | none => exact .inr ⟨rfl, exec_of_faultCause_none h⟩

/-- No instruction ends in a fault or a refusal of the host (log 3). -/
theorem exec_answers (i : Instr) (s : State) : ∃ t, exec i s = .next t := by
  obtain ⟨f, -, h⟩ | ⟨-, t, h, -⟩ := exec_cases i s
  · exact ⟨_, h⟩
  · exact ⟨t, h⟩

/-- Every step answers a next state (R79, log 3). -/
theorem step_answers (s : State) : ∃ t, step s = .next t := by
  unfold step
  split
  · exact ⟨s, rfl⟩
  split
  · exact ⟨s, rfl⟩
  split
  · exact ⟨_, rfl⟩
  split
  · exact ⟨_, rfl⟩
  · exact exec_answers _ s

/-! ### The latch (R38, R136) -/

/-- A clear latch is sound. -/
theorem latchSound_of_clear {s : State} (h : s.fault = FaultLatch.clear) : latchSound s := by
  simp [latchSound, h, FaultLatch.clear]

/-- The latch of a machine that is not halted is clear. -/
theorem fault_clear_of_latchSound {s : State} (h : latchSound s) (hh : s.halted = false) :
    s.fault = FaultLatch.clear := by
  simpa [latchSound, s.not_halted_iff.1 hh] using h

/-- The latch of a fetch fault tells the truth where the fetch goes beyond memory (R82, R133). -/
theorem latchSound_takeFault_fetch {s : State} (h : 0xFFF ≤ s.pc.toNat) :
    latchSound (s.takeFault .memoryOutOfRange none) := by
  simpa [latchSound] using h

/-- The latch of an illegal word tells the truth (R83, R131). -/
theorem latchSound_takeFault_illegal {s : State} {w : Word} (hpc : s.pc.toNat ≤ 0xFFE) (hd : decode w = none) :
    latchSound (s.takeFault .decodeError (some w)) := by
  simp [latchSound, hd, hpc]

/-- The latch of an instruction's fault tells the truth: the word recorded decodes to the instruction, whose cause
still holds in the state that faulted (R85, R136; log 5). -/
theorem latchSound_takeFault_exec {s : State} {i : Instr} {f : EngineFault} (hpc : s.pc.toNat ≤ 0xFFE)
    (hi : i.wellFormed = true) (hf : faultCause i s = some f) :
    latchSound (s.takeFault f (some (encode i))) := by
  have hcause : faultCause i (s.takeFault f (some (encode i))) = some f :=
    (faultCause_congr rfl rfl rfl rfl i).trans hf
  simpa [latchSound, decode_encode hi, hpc] using hcause

/-! ### Ways to meet the invariant -/

/-- A machine with a clear latch meets the invariant if its memory is canonical and it waits only on a fetched
instruction. -/
theorem machineInv_of_clear {s : State} (hf : s.fault = FaultLatch.clear) (hm : Memory.wf s.cfg s.mem)
    (hw : s.waiting = true → s.pc.toNat ≤ 0xFFE) : MachineInv s := by
  refine ⟨hm, latchSound_of_clear hf, fun ⟨hh, _⟩ => ?_, hw⟩
  simp [State.halted, hf, FaultLatch.clear] at hh

/-- A machine that is not waiting meets the invariant after a fault that its latch records truly. -/
theorem machineInv_takeFault {s : State} {f : EngineFault} {w : Option Word} (hm : Memory.wf s.cfg s.mem)
    (hw : s.waiting = false) (hl : latchSound (s.takeFault f w)) : MachineInv (s.takeFault f w) := by
  have hw' : (s.takeFault f w).waiting = false := hw
  exact ⟨hm, hl, by simp [hw'], by simp [hw']⟩

/-- A change of the timers, the keys, the screen, the stack entries, the random input, and of memory to another
canonical one, is none the invariant sees. -/
theorem machineInv_congr {s t : State} (h : MachineInv s) (hc : t.cfg = s.cfg) (hv : t.v = s.v) (hi : t.i = s.i)
    (hpc : t.pc = s.pc) (hsp : t.sp = s.sp) (hws : t.ws = s.ws) (hf : t.fault = s.fault)
    (hm : Memory.wf t.cfg t.mem) : MachineInv t := by
  obtain ⟨-, hlatch, hexcl, hwait⟩ := h
  refine ⟨hm, (latchSound_congr hf hpc hc hv hi hsp).2 hlatch, ?_, ?_⟩
  · rwa [State.halted_congr hf, State.waiting_congr hws]
  · rwa [State.waiting_congr hws, hpc]

/-! ### What each transaction keeps (R7 Table T1, R8) -/

/-- An executed instruction keeps the invariant: its fault is latched truly, and where it completes, the machine waits
only at the `pc` of the `Fx0A` just fetched. -/
theorem machineInv_exec {s t : State} {w : Word} {i : Instr} (h : MachineInv s) (hh : s.halted = false)
    (hw : s.waiting = false) (hf : s.fetchWord = some w) (hd : decode w = some i) (ht : exec i s = .next t) :
    MachineInv t := by
  obtain ⟨hmem, hlatch, -, -⟩ := h
  have hpc : s.pc.toNat ≤ 0xFFE := (State.fetchWord_eq_some hf).1
  obtain ⟨f, hcause, hx⟩ | ⟨-, u, hx, hu⟩ := exec_cases i s <;> rw [hx] at ht <;> cases ht
  · exact machineInv_takeFault hmem hw (latchSound_takeFault_exec hpc (wellFormed_of_decode hd) hcause)
  · refine machineInv_of_clear (hu.fault.trans (fault_clear_of_latchSound hlatch hh)) ?_ fun hwait => ?_
    · rw [hu.cfg]
      exact hu.mem hmem
    · obtain hws | hpc' := hu.wait
      · rw [State.waiting_congr hws, hw] at hwait
        cases hwait
      · rwa [hpc']

/-- A step keeps the invariant, in each of its stages (R79). -/
theorem machineInv_step {s t : State} (h : MachineInv s) (ht : step s = .next t) : MachineInv t := by
  obtain ⟨-, rfl⟩ | ⟨-, -, rfl⟩ | ⟨-, hw, hf, rfl⟩ | ⟨hh, hw, w, hf, ⟨hd, rfl⟩ | ⟨i, hd, hx⟩⟩ := step_cases ht
  · exact h
  · exact h
  · exact machineInv_takeFault h.1 hw (latchSound_takeFault_fetch (State.fetchWord_eq_none.1 hf))
  · exact machineInv_takeFault h.1 hw (latchSound_takeFault_illegal (State.fetchWord_eq_some hf).1 hd)
  · exact machineInv_exec h hh hw hf hd hx

/-- A step with the transaction's random byte answers, and keeps the invariant (R90). -/
theorem stepWith_keeps (b : Byte) {s : State} (h : MachineInv s) :
    ∃ t, stepWith b s = .next t ∧ MachineInv t := by
  obtain ⟨t, ht⟩ := step_answers { s with rand := b }
  have hinv : MachineInv t := machineInv_step ((machineInv_rand s b s.randCount).2 h) ht
  exact ⟨{ t with rand := s.rand, randCount := s.randCount }, by simp only [stepWith, ht],
    (machineInv_rand t _ _).2 hinv⟩

/-- A tick writes the timers alone (R143). -/
theorem machineInv_tick {s : State} (h : MachineInv s) : MachineInv (tick s) := by
  cases hh : s.halted with
  | true => rwa [tick_halted hh]
  | false =>
    rw [tick_running hh]
    exact machineInv_congr h rfl rfl rfl rfl rfl rfl rfl h.1

/-- A resolved wait leaves a running machine (R147). -/
theorem machineInv_resolveKey (x : Reg) (k : Key) {s : State} (h : MachineInv s) (hh : s.halted = false) :
    MachineInv (resolveKey x k s) := by
  obtain ⟨hmem, hlatch, -, -⟩ := h
  have hclear : s.fault = FaultLatch.clear := fault_clear_of_latchSound hlatch hh
  rw [resolveKey_eq]
  exact machineInv_of_clear hclear hmem fun hw => nomatch hw

/-- A key event writes the key line alone, or resolves the wait as well (R146). -/
theorem machineInv_setKey (k : Key) (p : Bool) {s : State} (h : MachineInv s) : MachineInv (setKey k p s) := by
  have hline : MachineInv { s with key := s.key.set k.val p k.isLt } :=
    machineInv_congr h rfl rfl rfl rfl rfl rfl rfl h.1
  by_cases hplain : s.ws = .running ∨ p = false ∨ s.keyDown k = true ∨ s.halted = true
  · rwa [setKey_plain hplain]
  · simp only [not_or, Bool.not_eq_false, Bool.not_eq_true] at hplain
    obtain ⟨hws, rfl, hup, hh⟩ := hplain
    cases hx : s.ws with
    | running => exact absurd hx hws
    | awaitingKey x =>
      rw [setKey_resolves hx hh hup]
      exact machineInv_resolveKey x k hline hh

/-- A load writes memory alone (R158). -/
theorem machineInv_load {bs : List Byte} {s t : State} (h : MachineInv s) (ht : load bs s = some t) :
    MachineInv t := by
  have hmem := wf_load ht h.1
  have hfit : bs.length ≤ 0xE00 := by
    by_contra hlarge
    rw [load_of_too_large (by omega)] at ht
    cases ht
  rw [load_of_fits hfit] at ht
  cases ht
  exact machineInv_congr h (by simp) (by simp) (by simp) (by simp) (by simp) (by simp) (by simp) hmem

/-- Reset leaves a running machine (R157). -/
theorem machineInv_resetMachine {s : State} (h : MachineInv s) : MachineInv (resetMachine s) :=
  machineInv_of_clear rfl (wf_resetMachine h.1) fun hw => nomatch hw

/-- Every transaction answers, and keeps the invariant. -/
theorem transact_keeps (tr : Transaction) {s : State} (h : MachineInv s) :
    ∃ t r, transact tr s = .next (t, r) ∧ MachineInv t := by
  cases tr with
  | step b =>
    obtain ⟨t, ht, hinv⟩ := stepWith_keeps b h
    exact ⟨t, stepResult s t, by simp only [transact, ht], hinv⟩
  | tick => exact ⟨_, _, rfl, machineInv_tick h⟩
  | setKey k p => exact ⟨_, _, rfl, machineInv_setKey k p h⟩
  | load bs =>
    cases hl : load bs s with
    | some t => exact ⟨t, .ok, by simp only [transact, hl], machineInv_load h hl⟩
    | none => exact ⟨s, .programTooLarge, by simp only [transact, hl], h⟩
  | reset => exact ⟨_, _, rfl, machineInv_resetMachine h⟩

/-! ### Sequences of transactions (R9) -/

/-- A finite sequence runs to its end and keeps the invariant. -/
theorem transactAll_keeps (ts : List Transaction) {s : State} (h : MachineInv s) :
    ∃ t, transactAll ts s = .next t ∧ MachineInv t := by
  induction ts generalizing s with
  | nil => exact ⟨s, rfl, h⟩
  | cons tr ts ih =>
    obtain ⟨u, r, hu, hinv⟩ := transact_keeps tr h
    obtain ⟨t, ht, hinv'⟩ := ih hinv
    exact ⟨t, by simp only [transactAll, hu, ht], hinv'⟩

/-- An infinite sequence runs for ever and keeps the invariant. -/
theorem runAt_keeps (ts : Nat → Transaction) {s : State} (h : MachineInv s) (n : Nat) :
    ∃ t, runAt ts s n = .next t ∧ MachineInv t := by
  induction n with
  | zero => exact ⟨s, rfl, h⟩
  | succ n ih =>
    obtain ⟨t, ht, hinv⟩ := ih
    obtain ⟨u, r, hu, hinv'⟩ := transact_keeps (ts n) hinv
    exact ⟨u, runAt_succ ht hu, hinv'⟩

/-- Settles O59: each transaction answers and keeps the invariant (`transact_keeps`), so by induction on the list, and
on the number of transactions run, every sequence does; the state after `n` of an infinite one is that of the list of
its first `n`. -/
theorem transactionsKeepInvariant : Obligations.TransactionsKeepInvariant := by
  intro s h
  refine ⟨fun ts => transactAll_keeps ts h, fun ts n => ?_⟩
  obtain ⟨t, ht, hinv⟩ := runAt_keeps ts h n
  exact ⟨t, ht, hinv, runAt_eq_transactAll ht⟩

end Sys2Proof.Machine
end

-- ==== The output ports ====
section
/-! What each output port shows of the state between transactions (spec/00_scope.md R7 Table T1). -/

namespace Sys2Proof.Machine

/-- The `waiting` port (R36). -/
theorem State.waitingPort_iff (s : State) : s.waitingPort = true ↔ ∃ x, s.ws = .awaitingKey x := by
  unfold State.waitingPort State.waiting
  cases s.ws with
  | running => simp
  | awaitingKey x => simp

/-- Row-major order puts the cell at column `px` of row `py` on bit `64 * py + px` (R34): dividing that bit number by
64 gives the row back, and the remainder is the column. -/
theorem State.framebufferPort_getLsbD (s : State) (px : Fin 64) (py : Fin 32) :
    s.framebufferPort.getLsbD (64 * py.val + px.val) = Framebuffer.cell s.fb px py := by
  have hbit : 64 * py.val + px.val < 2048 := by omega
  have hcol : Fin.ofNat 64 (64 * py.val + px.val) = px := Fin.ext (by simp only [Fin.val_ofNat]; omega)
  have hrow : Fin.ofNat 32 ((64 * py.val + px.val) / 64) = py := Fin.ext (by simp only [Fin.val_ofNat]; omega)
  rw [State.framebufferPort, BitVec.getLsbD_ofFnLE, dif_pos hbit, hcol, hrow]

/-- The port's 3-bit code is the code of R38, fault by fault (Table G1). -/
theorem FaultLatch.number_eq_faultCode (l : FaultLatch) : l.number = faultCode l.code := by
  unfold FaultLatch.number
  cases l.code with
  | none => rfl
  | some f => cases f <;> rfl

/-- Code 0 is kept for a latch with no fault: the five faults have the codes 1 to 5 (R38). -/
theorem faultCode_eq_zero_iff (c : Option EngineFault) : faultCode c = 0 ↔ c = none := by
  cases c with
  | none => simp [faultCode]
  | some f => cases f <;> simp [faultCode]

/-- A truth value as the one-bit port shows it. -/
theorem ofBool_eq_ite (b : Bool) : BitVec.ofBool b = if b then 1 else 0 := by cases b <;> rfl

/-- Settles O55, port by port: the framebuffer's bits by the row-major order, the code of the latch fault by fault. The
`sound_timer` and the `snapshot` ports are the state's own fields (R33, R40). -/
theorem portsShowTheState : Obligations.PortsShowTheState := by
  intro s
  have hcode : s.faultPort.1 = faultCode s.fault.code := FaultLatch.number_eq_faultCode s.fault
  have hzero : s.faultPort.1 = 0 ↔ s.halted = false := by
    rw [hcode, faultCode_eq_zero_iff, State.not_halted_iff]
  have hrest : s.faultPort.2 = (s.fault.addr, s.fault.word, if s.fault.wordValid then 1 else 0) := by
    rw [State.faultPort, ofBool_eq_ite]
  exact ⟨s.waitingPort_iff, s.framebufferPort_getLsbD, rfl, rfl, hcode, hzero, hrest⟩

end Sys2Proof.Machine
end

-- ==== The invariant along a step ====
section
/-! The invariant along one bare step (spec/20_memory.md R53; spec/60_exceptions.md R136, R137, R149). -/

namespace Sys2Proof.Machine

/-- Settles O58: the case analysis of the step's stages is `machineInv_step`, that of an executed instruction
`machineInv_exec`. -/
theorem stepKeepsInvariant : Obligations.StepKeepsInvariant := fun _ _ h ht => machineInv_step h ht

end Sys2Proof.Machine
end

-- ==== The canonical memory ====
section
/-! A canonical memory is determined by what it reads as: it lists exactly the bytes that differ from their value after
construction (spec/20_memory.md R53; log 4). -/

namespace Sys2Proof.Machine
namespace Memory

variable (cfg : Config)

/-- A byte that is not the address's construction value has been listed. -/
theorem mem_of_read_ne_background {m : Memory} {a : Nat} (h : read cfg m a ≠ background cfg a) :
    (a, read cfg m a) ∈ m := by
  induction m with
  | nil => exact absurd rfl h
  | cons c m ih =>
    obtain ⟨k, u⟩ := c
    by_cases ha : a = k
    · simp [read, ha]
    · simp only [read, if_neg ha] at h ⊢
      exact List.mem_cons_of_mem _ (ih h)

/-- In a rising list the read of a listed address finds the byte listed there: no earlier entry hides it. -/
theorem read_of_mem {m : Memory} (hm : m.Pairwise (fun c d => c.1 < d.1)) {c : Host.Cell} (hc : c ∈ m) :
    read cfg m c.1 = c.2 := by
  induction m with
  | nil => cases hc
  | cons d m ih =>
    obtain ⟨hd, hm⟩ := List.pairwise_cons.1 hm
    obtain rfl | hc := List.mem_cons.1 hc
    · exact if_pos rfl
    · exact (if_neg (hd c hc).ne').trans (ih hm hc)

/-- A canonical memory lists a byte exactly where that byte is read and is not the construction value. -/
theorem mem_iff_read {m : Memory} (hm : wf cfg m) (c : Host.Cell) :
    c ∈ m ↔ read cfg m c.1 = c.2 ∧ c.2 ≠ background cfg c.1 := by
  obtain ⟨hrise, hlisted⟩ := hm
  refine ⟨fun hc => ⟨read_of_mem cfg hrise hc, (hlisted c hc).2⟩, fun ⟨hread, hne⟩ => ?_⟩
  have hmem : (c.1, read cfg m c.1) ∈ m := mem_of_read_ne_background cfg (hread ▸ hne)
  rwa [hread] at hmem

end Memory

/-- Settles O56: two canonical memories that read alike list the same bytes (`Memory.mem_iff_read`), and a rising list
is determined by its members. -/
theorem canonicalMemoryIsUnique : Obligations.CanonicalMemoryIsUnique := by
  intro c m n hm hn hread
  have hirrefl : Std.Irrefl (fun c d : Host.Cell => c.1 < d.1) := ⟨fun c => Nat.lt_irrefl c.1⟩
  have hantisymm : Std.Antisymm (fun c d : Host.Cell => c.1 < d.1) := ⟨fun _ _ h h' => absurd h h'.asymm⟩
  refine hm.1.eq_of_mem_iff hn.1 fun cell => ?_
  rw [Memory.mem_iff_read c hm, Memory.mem_iff_read c hn, hread]

end Sys2Proof.Machine
end

-- ==== A store and the next fetch ====
section
/-! A store is seen by the very next fetch (spec/20_memory.md R62, R64; D27): each store leaves memory as an overlay of
the old one, and the step of a running machine executes the word it then reads at its `pc`. -/

namespace Sys2Proof.Machine

/-! ### The step of a running machine (R79, R82, R84) -/

theorem State.fetchWord_of_le {s : State} (h : s.pc.toNat ≤ 0xFFE) :
    s.fetchWord = some (wordOfBytes (s.byteAt s.pc.toNat) (s.byteAt (s.pc.toNat + 1))) := if_neg (by omega)

/-- A running machine executes the instruction its word at `pc` decodes to. -/
theorem step_eq_exec {s : State} {i : Instr} (hrun : s.running) (hpc : s.pc.toNat ≤ 0xFFE)
    (hd : decode (wordOfBytes (s.byteAt s.pc.toNat) (s.byteAt (s.pc.toNat + 1))) = some i) : step s = exec i s := by
  obtain ⟨hh, hw⟩ := hrun
  simp [step, hh, hw, State.fetchWord_of_le hpc, hd]

/-- What a store of `s` leads to: a machine `t` with the latch and the wait state of the running machine `s`, whose
bytes read as `m`, executes the word of `m` at its `pc`. -/
theorem step_eq_exec_of_byteAt {s t : State} {i : Instr} {m : Nat → Byte} {pc : Nat} (hrun : s.running)
    (hf : t.fault = s.fault) (hws : t.ws = s.ws) (hpc : t.pc.toNat = pc) (hin : pc + 1 ≤ 0xFFF)
    (hm : ∀ a, t.byteAt a = m a) (hd : decode (wordOfBytes (m pc) (m (pc + 1))) = some i) : step t = exec i t := by
  subst hpc
  have hrun' : t.running := by rwa [State.running, State.halted_congr hf, State.waiting_congr hws]
  exact step_eq_exec hrun' (by omega) (by rwa [hm, hm])

/-! ### Memory after each store -/

/-- An overlay reads its bytes only below their number. -/
theorem overlay_congr {s : State} {base n : Nat} {f g : Nat → Byte} (h : ∀ k < n, f k = g k) (a : Nat) :
    overlay s base n f a = overlay s base n g a := by
  unfold overlay
  split
  · exact h _ (by omega)
  · rfl

/-- Byte `k` of the bytes that `Fx55` stores is `Vk` (R119). -/
theorem State.bytesUpTo_getD {s : State} {x : Reg} {k : Nat} (hk : k < x.val + 1) :
    (s.bytesUpTo x).getD k 0 = s.getV (Fin.ofNat 16 k) := by
  have hval : (Fin.ofNat 16 k).val = k := Nat.mod_eq_of_lt (by omega)
  have hlen : (Fin.ofNat 16 k).val < (s.bytesUpTo x).length := by rwa [hval, s.bytesUpTo_length]
  rw [← s.bytesUpTo_getElem x _ hlen, ← List.getD_eq_getElem _ 0 hlen, hval]

/-- The bytes that `Fx33` stores are the decimal digits of the register (R118). -/
theorem decimalDigits_getD (b : Byte) (k : Nat) :
    (decimalDigits b).getD k 0 =
      BitVec.ofNat 8 ([b.toNat / 100, b.toNat / 10 % 10, b.toNat % 10].getD k 0) :=
  List.getD_map [b.toNat / 100, b.toNat / 10 % 10, b.toNat % 10] 0 (BitVec.ofNat 8)

/-! ### Where the stores complete (R118, R119, R158) -/

theorem exec_storeRegs_of_le {s : State} {x : Reg} (h : s.i.toNat + x.val ≤ 0xFFF) :
    exec (.storeRegs x) s = .next ((s.storeBytes s.i.toNat (s.bytesUpTo x)).advanceIndex x).advance :=
  if_neg (by omega)

theorem exec_ldB_of_le {s : State} {x : Reg} (h : s.i.toNat + 2 ≤ 0xFFF) :
    exec (.ldB x) s = .next (s.storeBytes s.i.toNat (decimalDigits (s.getV x))).advance :=
  if_neg (by omega)

theorem transact_load_of_fits {bs : List Byte} {s : State} (h : bs.length ≤ 0xE00) :
    transact (.load bs) s = .next (s.storeBytes 0x200 bs, .ok) := by
  simp only [transact, load_of_fits h]

/-- The normal advance from an address inside memory does not wrap (R88). -/
theorem toNat_add_two {pc : Word} (h : pc.toNat + 3 ≤ 0xFFF) : (pc + 2).toNat = pc.toNat + 2 := by
  have htwo : (2 : Word).toNat = 2 := rfl
  rw [BitVec.toNat_add_of_lt (by omega), htwo]

/-- Settles O46, store by store: each leaves a running machine whose memory is the overlay of its bytes, with `pc` at
the next word after `Fx55` and `Fx33`, and unchanged after `load`. -/
theorem storeIsSeenByNextFetch : Obligations.StoreIsSeenByNextFetch := by
  intro s i hrun
  refine ⟨fun hpc => ?_, fun hpc bs hbs hd => ?_⟩
  · have hnext : (s.pc + 2).toNat = s.pc.toNat + 2 := toNat_add_two hpc
    refine ⟨fun x hx hd => ⟨_, exec_storeRegs_of_le hx, ?_⟩, fun x hx hd => ⟨_, exec_ldB_of_le hx, ?_⟩⟩
    · refine step_eq_exec_of_byteAt hrun (by simp) (by simp) (by simpa using hnext) (by omega) (fun a => ?_) hd
      rw [State.advance_byteAt, State.advanceIndex_byteAt, byteAt_storeBytes_eq_overlay, State.bytesUpTo_length]
      exact overlay_congr (fun k hk => State.bytesUpTo_getD hk) a
    · refine step_eq_exec_of_byteAt hrun (by simp) (by simp) (by simpa using hnext) (by omega) (fun a => ?_) hd
      rw [State.advance_byteAt, byteAt_storeBytes_eq_overlay]
      exact overlay_congr (fun k _ => decimalDigits_getD (s.getV x) k) a
  · exact ⟨_, transact_load_of_fits hbs, step_eq_exec_of_byteAt hrun (by simp) (by simp) (by simp) hpc
      (byteAt_storeBytes_eq_overlay s 0x200 bs) hd⟩

end Sys2Proof.Machine
end

-- ==== The encoding ====
section
/-! Decoding against the encoder, against Table O1 and against the list of illegal words (spec/30_encoding.md). Rows of
Table O1 are pairwise disjoint (R72), so the row a word selects is the row it decodes by, and a fact about decoding is a
fact about each of the 34 rows. -/

namespace Sys2Proof

/-! ### Selecting a row (R71, R72) -/

/-- The selection rule of R71 as an equation. -/
theorem OpRow.selects_iff {r : OpRow} {w : Word} : r.selects w = true ↔ w &&& r.mask = r.pat := beq_iff_eq

theorem OpRow.selects_eq_false_iff {r : OpRow} {w : Word} : r.selects w = false ↔ ¬ w &&& r.mask = r.pat := by
  rw [Bool.eq_false_iff, ne_eq, OpRow.selects_iff]

/-- A word that selects a row of Table O1 decodes by that row, the only one it selects. -/
theorem decode_of_selects {r : OpRow} {w : Word} (hr : r ∈ opTable) (hs : r.selects w = true) :
    decode w = some (r.build w) := by
  simp [decode, find?_of_selects opTable_pairwise hr hs]

/-! ### The round trip (R67, R69, R71) -/

/-- Settles O2: the word of each instruction selects its own row, the only one it can select, and the fields of the
row's shape give the operands back (`decode_encode`, instruction by instruction in Laws/RoundTrip). -/
theorem decodeOfEncode : Obligations.DecodeOfEncode := fun _ => decode_encode

/-! A row's mask and the fields it reads cover the word, each row by the law of its shape. -/

/-- Mask 0xFFFF fixes the whole word. -/
theorem eq_of_and_FFFF {w p : Word} (h : w &&& 0xFFFF = p) : p = w :=
  h.symm.trans BitVec.and_allOnes

theorem encode_build_rowsLow {w : Word} : ∀ r ∈ rowsLow, r.selects w = true → encode (r.build w) = w := by
  simp only [rowsLow, List.forall_mem_cons, OpRow.selects_iff]
  exact ⟨eq_of_and_FFFF, eq_of_and_FFFF, (encodeAddr_fields ·), (encodeAddr_fields ·), (encodeRegByte_fields ·),
    (encodeRegByte_fields ·), (encodeRegReg_fields ·), (encodeRegByte_fields ·), (encodeRegByte_fields ·),
    List.forall_mem_nil _⟩

theorem encode_build_rowsAlu {w : Word} : ∀ r ∈ rowsAlu, r.selects w = true → encode (r.build w) = w := by
  simp only [rowsAlu, List.forall_mem_cons, OpRow.selects_iff]
  exact ⟨(encodeRegReg_fields ·), (encodeRegReg_fields ·), (encodeRegReg_fields ·), (encodeRegReg_fields ·),
    (encodeRegReg_fields ·), (encodeRegReg_fields ·), (encodeRegReg_fields ·), (encodeRegReg_fields ·),
    (encodeRegReg_fields ·), List.forall_mem_nil _⟩

theorem encode_build_rowsHigh {w : Word} : ∀ r ∈ rowsHigh, r.selects w = true → encode (r.build w) = w := by
  simp only [rowsHigh, List.forall_mem_cons, OpRow.selects_iff]
  exact ⟨(encodeRegReg_fields ·), (encodeAddr_fields ·), (encodeAddr_fields ·), (encodeRegByte_fields ·),
    (encodeRegRegNib_fields ·), List.forall_mem_nil _⟩

theorem encode_build_rowsMisc {w : Word} : ∀ r ∈ rowsMisc, r.selects w = true → encode (r.build w) = w := by
  simp only [rowsMisc, List.forall_mem_cons, OpRow.selects_iff]
  exact ⟨(encodeReg_fields ·), (encodeReg_fields ·), (encodeReg_fields ·), (encodeReg_fields ·), (encodeReg_fields ·),
    (encodeReg_fields ·), (encodeReg_fields ·), (encodeReg_fields ·), (encodeReg_fields ·), (encodeReg_fields ·),
    (encodeReg_fields ·), List.forall_mem_nil _⟩

/-- No row drops a bit of a word that selects it. -/
theorem encode_build {w : Word} : ∀ r ∈ opTable, r.selects w = true → encode (r.build w) = w := by
  simp only [opTable, List.forall_mem_append]
  exact ⟨⟨⟨encode_build_rowsLow, encode_build_rowsAlu⟩, encode_build_rowsHigh⟩, encode_build_rowsMisc⟩

/-- Settles O3: a word decodes by a row that it selects, and that row loses no bit of it (`encode_build`). -/
theorem encodeOfDecode : Obligations.EncodeOfDecode := by
  intro w i h
  obtain ⟨r, hr, hsel, rfl⟩ := decode_eq_some h
  exact ⟨wellFormed_of_decode h, encode_build r hr hsel⟩

end Sys2Proof

namespace Sys2Proof.Machine

/-! ### Table O1 (R71) -/

/-- The decoder's rows are those of Table O1: what a row builds stands in the table with its `match` and `mask`. -/
theorem tableO1_build (w : Word) : ∀ r ∈ opTable, tableO1 (r.build w) = (r.pat, r.mask) := by
  simp [opTable, rowsLow, rowsAlu, rowsHigh, rowsMisc, tableO1]

/-- A well-formed instruction is built by a row, the one its own word selects. -/
theorem exists_row_of_wellFormed {i : Instr} (h : i.wellFormed = true) :
    ∃ r ∈ opTable, tableO1 i = (r.pat, r.mask) := by
  obtain ⟨r, hr, -, hi⟩ := decode_eq_some (decode_encode h)
  exact ⟨r, hr, hi ▸ tableO1_build _ r hr⟩

/-- Every instruction has a row in the decoder: the table does not look at the row count of `Dxyn`, the one operand that
may be out of range. -/
theorem exists_row (i : Instr) : ∃ r ∈ opTable, tableO1 i = (r.pat, r.mask) := by
  cases i
  case drw x y n => exact exists_row_of_wellFormed (i := .drw x y 0) rfl
  all_goals exact exists_row_of_wellFormed rfl

/-- Settles O4: the decoder's rows are the table's (`tableO1_build`), and each instruction's row is one of them
(`exists_row`). -/
theorem wordSelectsItsRowOfTableO1 : Obligations.WordSelectsItsRowOfTableO1 := by
  refine ⟨fun w i h => ?_, fun w j h => ?_⟩
  · obtain ⟨r, hr, hsel, rfl⟩ := decode_eq_some h
    rw [tableO1_build w r hr]
    exact OpRow.selects_iff.1 hsel
  · obtain ⟨r, hr, hj⟩ := exists_row j
    rw [hj] at h
    exact ⟨r.build w, decode_of_selects hr (OpRow.selects_iff.2 h), (tableO1_build w r hr).trans hj.symm⟩

/-! ### The illegal words (R74)

What each mask fixes, as a statement about the word's class and its low bits; then, part by part of Table O1, the words
that select no row of the part. A mask is written as `simp` writes it, so that `simp` finds the statement. -/

section Class

variable (w p : Word)

/-- Mask 0xFFFF fixes the class and the rest of the word. -/
theorem and_FFFF_eq_iff_class :
    w &&& 0xFFFF#16 = p ↔ w.toNat / 4096 = p.toNat / 4096 ∧ w.toNat % 4096 = p.toNat % 4096 :=
  (and_FFFF_eq_iff w p).trans (by omega)

/-- Mask 0xF000 fixes the class. -/
theorem and_F000_eq_iff_class :
    w &&& 0xF000#16 = p ↔ w.toNat / 4096 = p.toNat / 4096 ∧ 0 = p.toNat % 4096 :=
  (and_F000_eq_iff w p).trans (by omega)

/-- Mask 0xF00F fixes the class and `N`. -/
theorem and_F00F_eq_iff_class :
    w &&& 0xF00F#16 = p ↔ w.toNat / 4096 = p.toNat / 4096 ∧ w.toNat % 16 = p.toNat % 4096 :=
  (and_F00F_eq_iff w p).trans (by omega)

/-- Mask 0xF0FF fixes the class and `NN`. -/
theorem and_F0FF_eq_iff_class :
    w &&& 0xF0FF#16 = p ↔ w.toNat / 4096 = p.toNat / 4096 ∧ w.toNat % 256 = p.toNat % 4096 :=
  (and_F0FF_eq_iff w p).trans (by omega)

/-- Classes 0 to 7. -/
theorem rowsLow_none_selects_iff :
    (∀ r ∈ rowsLow, r.selects w = false) ↔
      (w.toNat / 4096 = 0 → w.toNat % 4096 ∉ [0x0E0, 0x0EE]) ∧ w.toNat / 4096 ∉ [1, 2, 3, 4] ∧
      (w.toNat / 4096 = 5 → w.toNat % 16 ≠ 0) ∧ w.toNat / 4096 ∉ [6, 7] := by
  simp [rowsLow, OpRow.selects_eq_false_iff, and_FFFF_eq_iff_class, and_F000_eq_iff_class, and_F00F_eq_iff_class,
    imp_and, and_assoc]

/-- Class 8. -/
theorem rowsAlu_none_selects_iff :
    (∀ r ∈ rowsAlu, r.selects w = false) ↔
      (w.toNat / 4096 = 8 → w.toNat % 16 ∉ [0x0, 0x1, 0x2, 0x3, 0x4, 0x5, 0x6, 0x7, 0xE]) := by
  simp [rowsAlu, OpRow.selects_eq_false_iff, and_F00F_eq_iff_class, imp_and]

/-- Classes 9 to D. -/
theorem rowsHigh_none_selects_iff :
    (∀ r ∈ rowsHigh, r.selects w = false) ↔
      (w.toNat / 4096 = 9 → w.toNat % 16 ≠ 0) ∧ w.toNat / 4096 ∉ [0xA, 0xB, 0xC, 0xD] := by
  simp [rowsHigh, OpRow.selects_eq_false_iff, and_F000_eq_iff_class, and_F00F_eq_iff_class]

/-- Classes E and F. -/
theorem rowsMisc_none_selects_iff :
    (∀ r ∈ rowsMisc, r.selects w = false) ↔
      (w.toNat / 4096 = 0xE → w.toNat % 256 ∉ [0x9E, 0xA1]) ∧
      (w.toNat / 4096 = 0xF → w.toNat % 256 ∉ [0x07, 0x0A, 0x15, 0x18, 0x1E, 0x29, 0x33, 0x55, 0x65]) := by
  simp [rowsMisc, OpRow.selects_eq_false_iff, and_F0FF_eq_iff_class, imp_and, and_assoc]

end Class

/-- The values of `N` that the nine rows of class 8 leave over are those R74 lists. -/
theorem nibble_notMem_rowsAlu_iff : ∀ {n : Nat}, n < 16 →
    (n ∉ [0x0, 0x1, 0x2, 0x3, 0x4, 0x5, 0x6, 0x7, 0xE] ↔ n ∈ [0x8, 0x9, 0xA, 0xB, 0xC, 0xD, 0xF]) := by
  decide

/-- Settles O5: a word is illegal when no row selects it, and each part of the table says which words of its own classes
its rows leave over. In the word's class the rows of the other classes say nothing. -/
theorem illegalWordsByClass : Obligations.IllegalWordsByClass := by
  intro w
  have hclass : w.toNat / 4096 < 16 := by omega
  have hlow : w.toNat / 4096 = 0 → w.toNat % 4096 = w.toNat := by omega
  have hnib := nibble_notMem_rowsAlu_iff (Nat.mod_lt w.toNat (show 0 < 16 by decide))
  simp only [decode_eq_none, opTable, List.forall_mem_append, rowsLow_none_selects_iff, rowsAlu_none_selects_iff,
    rowsHigh_none_selects_iff, rowsMisc_none_selects_iff, illegalWord, hnib]
  interval_cases hc : w.toNat / 4096
  · simp [hlow rfl]
  all_goals simp

end Sys2Proof.Machine
end

-- ==== The instructions that complete ====
section
/-! Where an instruction that may fault completes, and what every completed instruction does to `pc`, to the timers and
to the keys (spec/40_engine_cycle.md R87 Table PC1, R89). -/

namespace Sys2Proof.Machine

/-! ### Where the faulting instructions complete (R94, R96, R118..R120, R122, R124, R125)

Each may assume that Table G1 gives it no fault: that is the branch its meaning takes. -/

section NoFault

variable {s : State} {x y : Reg} {n : Nat} {nnn : BitVec 12}

theorem exec_ret_of_no_fault (h : faultCause .ret s = none) :
    exec .ret s = .next (State.jump { s with sp := ⟨s.sp.val - 1, by omega⟩ } (nextPc .ret s)) := by
  have hsp : 0 < s.sp.val := by simpa [faultCause, Nat.pos_iff_ne_zero] using h
  have htop : s.sp.val - 1 < 16 := by omega
  simp [exec, execRet, State.pop, hsp, nextPc, htop]

theorem sp_lt_of_call_no_fault (h : faultCause (.call nnn) s = none) : s.sp.val < 16 := by
  have hsp : s.sp.val ≠ 16 := by simpa [faultCause] using h
  omega

theorem exec_call_of_lt (h : s.sp.val < 16) :
    exec (.call nnn) s = .next (State.jump
      { s with stack := s.stack.set s.sp.val (s.pc + 2) h, sp := ⟨s.sp.val + 1, by omega⟩ } (zextAddr nnn)) := by
  simp only [exec, execCall, State.push, dif_pos h]

theorem exec_drw_of_no_fault (h : faultCause (.drw x y n) s = none) :
    exec (.drw x y n) s =
      let d := Drawing.drawRows (s.spriteCol x) (s.spriteRow y) (s.loadBytes s.i.toNat n) (s.fb, false)
      .next (State.setVF { s with fb := d.1 } d.2).advance :=
  if_neg (by simpa [faultCause] using h)

theorem exec_ldB_of_no_fault (h : faultCause (.ldB x) s = none) :
    exec (.ldB x) s = .next (s.storeBytes s.i.toNat (decimalDigits (s.getV x))).advance :=
  exec_ldB_of_le (by simpa [faultCause] using h)

theorem exec_storeRegs_of_no_fault (h : faultCause (.storeRegs x) s = none) :
    exec (.storeRegs x) s = .next ((s.storeBytes s.i.toNat (s.bytesUpTo x)).advanceIndex x).advance :=
  exec_storeRegs_of_le (by simpa [faultCause] using h)

theorem exec_loadRegs_of_no_fault (h : faultCause (.loadRegs x) s = none) :
    exec (.loadRegs x) s = .next ((s.setRegs
      ((regsUpTo x).map fun k => (k, s.byteAt (s.i.toNat + k.val)))).advanceIndex x).advance :=
  if_neg (by simpa [faultCause] using h)

/-- A key skip that does not fault names the key `Vx mod 16` (D17). -/
theorem keyOperand_of_no_fault (h : faultCause (.skp x) s = none) :
    s.keyOperand x = some (Fin.ofNat 16 (s.getV x).toNat) :=
  if_neg (by simpa [faultCause] using h)

theorem exec_skp_of_no_fault (h : faultCause (.skp x) s = none) :
    exec (.skp x) s = .next (s.skipIf (s.keyDown (Fin.ofNat 16 (s.getV x).toNat))) := by
  simp only [exec, execSkp, keyOperand_of_no_fault h]

theorem exec_sknp_of_no_fault (h : faultCause (.sknp x) s = none) :
    exec (.sknp x) s = .next (s.skipIf (!s.keyDown (Fin.ofNat 16 (s.getV x).toNat))) := by
  simp only [exec, execSknp, keyOperand_of_no_fault h]

end NoFault

/-! ### The jump targets of Table PC1 as the meanings compute them -/

theorem zextAddr_eq_ofNat (nnn : BitVec 12) : zextAddr nnn = BitVec.ofNat 16 nnn.toNat :=
  (BitVec.ofNat_toNat 16 nnn).symm

/-- The sum of two widened values is the widened sum (R101). -/
theorem zextAddr_add_zextByte (nnn : BitVec 12) (b : Byte) :
    zextAddr nnn + zextByte b = BitVec.ofNat 16 (nnn.toNat + b.toNat) := by
  rw [zextAddr, zextByte, BitVec.ofNat_add, BitVec.ofNat_toNat, BitVec.ofNat_toNat]

/-! ### What a completed instruction does (R87, R89) -/

/-- The instruction `i`, completed from `s` to `t`, selects its next `pc` by Table PC1, writes no key, and writes a
timer only as `Fx15` or `Fx18`. -/
structure FollowsCycle (i : Instr) (s t : State) : Prop where
  pc : t.pc = nextPc i s
  key : t.key = s.key
  dt : t.dt = s.dt ∨ ∃ x, i = .ldDtVx x ∧ t.dt = s.getV x
  st : t.st = s.st ∨ ∃ x, i = .ldStVx x ∧ t.st = s.getV x

/-- An instruction that writes neither a key nor a timer. -/
theorem FollowsCycle.of_eq {i : Instr} {s t : State} (hpc : t.pc = nextPc i s) (hkey : t.key = s.key)
    (hdt : t.dt = s.dt) (hst : t.st = s.st) : FollowsCycle i s t :=
  ⟨hpc, hkey, .inl hdt, .inl hst⟩

/-- The skip that is taken when `c` answers true is the skip on the condition that `c` decides. -/
theorem FollowsCycle.skipIf {i : Instr} {s : State} {c : Bool} {p : Prop} [Decidable p]
    (hi : nextPc i s = skipPc s.pc p) (hc : c = true ↔ p) : FollowsCycle i s (s.skipIf c) := by
  refine .of_eq ?_ rfl rfl rfl
  rw [hi, State.skipIf_pc, skipPc]
  exact if_congr hc rfl rfl

/-- A logic instruction advances under either value of `QUIRK_LOGIC_VF_RESET`. -/
theorem FollowsCycle.writeLogic {i : Instr} {s : State} (x : Reg) (b : Byte) (hi : nextPc i s = s.pc + 2) :
    FollowsCycle i s (s.writeLogic x b) := by
  unfold State.writeLogic
  split <;> exact .of_eq hi.symm rfl rfl rfl

/-- Every instruction without a cause of Table G1 follows the cycle. -/
theorem exec_followsCycle {i : Instr} {s : State} (h : faultCause i s = none) :
    ∃ t, exec i s = .next t ∧ FollowsCycle i s t := by
  cases i
  case ldDtVx x => exact ⟨_, rfl, rfl, rfl, .inr ⟨x, rfl, rfl⟩, .inl rfl⟩
  case ldStVx x => exact ⟨_, rfl, rfl, rfl, .inl rfl, .inr ⟨x, rfl, rfl⟩⟩
  case seByte | seReg => exact ⟨_, rfl, .skipIf rfl beq_iff_eq⟩
  case sneByte | sneReg => exact ⟨_, rfl, .skipIf rfl (by simp [aluEq])⟩
  case skp x => exact ⟨_, exec_skp_of_no_fault h, .skipIf rfl Iff.rfl⟩
  case sknp x => exact ⟨_, exec_sknp_of_no_fault h, .skipIf rfl (by simp)⟩
  case jp nnn => exact ⟨_, rfl, .of_eq (zextAddr_eq_ofNat nnn) rfl rfl rfl⟩
  case jpV0 nnn => exact ⟨_, rfl, .of_eq (zextAddr_add_zextByte nnn (s.getV 0)) rfl rfl rfl⟩
  case ret => exact ⟨_, exec_ret_of_no_fault h, .of_eq rfl rfl rfl rfl⟩
  case call nnn =>
    exact ⟨_, exec_call_of_lt (sp_lt_of_call_no_fault h), .of_eq (zextAddr_eq_ofNat nnn) rfl rfl rfl⟩
  case orReg | andReg | xorReg => exact ⟨_, rfl, .writeLogic _ _ rfl⟩
  case addI x =>
    refine ⟨_, rfl, ?_⟩
    split <;> exact .of_eq rfl rfl rfl rfl
  case drw => exact ⟨_, exec_drw_of_no_fault h, .of_eq rfl rfl rfl rfl⟩
  case ldB => exact ⟨_, exec_ldB_of_no_fault h, .of_eq (by simp [nextPc]) (by simp) (by simp) (by simp)⟩
  case storeRegs =>
    exact ⟨_, exec_storeRegs_of_no_fault h, .of_eq (by simp [nextPc]) (by simp) (by simp) (by simp)⟩
  case loadRegs =>
    exact ⟨_, exec_loadRegs_of_no_fault h, .of_eq (by simp [nextPc]) (by simp) (by simp) (by simp)⟩
  all_goals exact ⟨_, rfl, .of_eq rfl rfl rfl rfl⟩

/-- An instruction latches its fault of Table G1, or it follows the cycle. -/
theorem exec_followsCycle_or_faults {i : Instr} {s t : State} (h : exec i s = .next t) :
    (∃ f, faultCause i s = some f ∧ t = s.takeFault f (some (encode i))) ∨
    (faultCause i s = none ∧ FollowsCycle i s t) := by
  cases hc : faultCause i s with
  | some f =>
    rw [exec_of_faultCause_some hc] at h
    cases h
    exact .inl ⟨f, rfl, rfl⟩
  | none =>
    obtain ⟨u, hu, hcycle⟩ := exec_followsCycle hc
    rw [hu] at h
    cases h
    exact .inr ⟨rfl, hcycle⟩

end Sys2Proof.Machine
end

-- ==== The inputs of an instruction ====
section
/-! Which instructions read the random byte and the quirk switches (spec/40_engine_cycle.md R90, R91): a change of an
input that an instruction does not read passes through the instruction unchanged. -/

namespace Sys2Proof.Machine

/-- The machine with its quirk switches changed by `f` and its random byte by `g`. -/
def State.mapInputs (f : Quirks → Quirks) (g : Byte → Byte) (s : State) : State :=
  { s with cfg := { s.cfg with quirks := f s.cfg.quirks }, rand := g s.rand }

section Commute

variable (s : State) (f : Quirks → Quirks) (g : Byte → Byte)

/-- No read of memory sees the switches: a byte that is not listed depends on the font alone (R154). -/
@[simp] theorem State.byteAt_mapInputs (a : Nat) : (s.mapInputs f g).byteAt a = s.byteAt a := by
  have hread (m : Memory) : Memory.read (s.mapInputs f g).cfg m a = Memory.read s.cfg m a := by
    induction m with
    | nil => rfl
    | cons c m ih => simp only [Memory.read, ih]
  exact hread s.mem

@[simp] theorem State.loadBytes_mapInputs (a n : Nat) : (s.mapInputs f g).loadBytes a n = s.loadBytes a n := by
  simp [State.loadBytes]

theorem State.storeBytes_mapInputs (a : Nat) (bs : List Byte) :
    (s.mapInputs f g).storeBytes a bs = (s.storeBytes a bs).mapInputs f g := by
  induction bs generalizing s a with
  | nil => rfl
  | cons b bs ih => exact ih (s.storeByte a b) (a + 1)

theorem State.setRegs_mapInputs (l : List (Reg × Byte)) :
    (s.mapInputs f g).setRegs l = (s.setRegs l).mapInputs f g := by
  induction l generalizing s with
  | nil => rfl
  | cons c l ih => exact ih (s.setV c.1 c.2)

/-- Table G1 asks for no input. -/
theorem faultCause_mapInputs (i : Instr) : faultCause i (s.mapInputs f g) = faultCause i s := by cases i <;> rfl

/-- A logic instruction reads its switch, so only a change of the random byte passes through it. -/
theorem State.writeLogic_mapInputs (x : Reg) (b : Byte) :
    (s.mapInputs id g).writeLogic x b = (s.writeLogic x b).mapInputs id g := by
  simp only [State.writeLogic, apply_ite (State.mapInputs id g)]
  rfl

end Commute

/-- `Cxnn`, the one instruction that reads the random byte (R90). -/
def readsRand : Instr → Bool
  | .rnd _ _ => true
  | _ => false

/-- The eight instructions that read a quirk switch (R91, R12 Table Q1). -/
def readsQuirks : Instr → Bool
  | .orReg _ _ | .andReg _ _ | .xorReg _ _ | .shr _ _ | .shl _ _ => true
  | .addI _ | .storeRegs _ | .loadRegs _ => true
  | _ => false

theorem readsRand_eq_false {i : Instr} (h : ∀ x nn, i ≠ .rnd x nn) : readsRand i = false := by
  unfold readsRand
  split
  · exact absurd rfl (h _ _)
  · rfl

theorem readsQuirks_eq_false {i : Instr}
    (h2 : ∀ x y, i ≠ .orReg x y ∧ i ≠ .andReg x y ∧ i ≠ .xorReg x y ∧ i ≠ .shr x y ∧ i ≠ .shl x y)
    (h1 : ∀ x, i ≠ .addI x ∧ i ≠ .storeRegs x ∧ i ≠ .loadRegs x) : readsQuirks i = false := by
  cases i <;> simp_all [readsQuirks]

/-- An instruction that completes takes a change of the inputs it does not read through to its next state. -/
theorem exec_mapInputs_of_faultCause_none {i : Instr} {s : State} {f : Quirks → Quirks} {g : Byte → Byte}
    (h : faultCause i s = none) (hf : readsQuirks i = true → f = id) (hg : readsRand i = true → g = id) :
    ∃ t, exec i s = .next t ∧ exec i (s.mapInputs f g) = .next (t.mapInputs f g) := by
  have h' : faultCause i (s.mapInputs f g) = none := (faultCause_mapInputs s f g i).trans h
  cases i
  case rnd x nn =>
    obtain rfl := hg rfl
    exact ⟨_, rfl, rfl⟩
  case shr | shl =>
    obtain rfl := hf rfl
    exact ⟨_, rfl, rfl⟩
  case orReg | andReg | xorReg =>
    obtain rfl := hf rfl
    exact ⟨_, rfl, congrArg _ (s.writeLogic_mapInputs g _ _)⟩
  case addI x =>
    obtain rfl := hf rfl
    refine ⟨_, rfl, ?_⟩
    rw [apply_ite (State.mapInputs id g)]
    rfl
  case storeRegs =>
    obtain rfl := hf rfl
    refine ⟨_, exec_storeRegs_of_no_fault h, (exec_storeRegs_of_no_fault h').trans ?_⟩
    rw [State.storeBytes_mapInputs]
    rfl
  case loadRegs =>
    obtain rfl := hf rfl
    refine ⟨_, exec_loadRegs_of_no_fault h, (exec_loadRegs_of_no_fault h').trans ?_⟩
    simp only [State.setRegs_mapInputs, State.byteAt_mapInputs]
    rfl
  case ldB =>
    refine ⟨_, exec_ldB_of_no_fault h, (exec_ldB_of_no_fault h').trans ?_⟩
    rw [State.storeBytes_mapInputs]
    rfl
  case drw =>
    refine ⟨_, exec_drw_of_no_fault h, (exec_drw_of_no_fault h').trans ?_⟩
    simp only [State.loadBytes_mapInputs]
    rfl
  case ret => exact ⟨_, exec_ret_of_no_fault h, exec_ret_of_no_fault h'⟩
  case call =>
    exact ⟨_, exec_call_of_lt (sp_lt_of_call_no_fault h), exec_call_of_lt (sp_lt_of_call_no_fault h')⟩
  case skp => exact ⟨_, exec_skp_of_no_fault h, exec_skp_of_no_fault h'⟩
  case sknp => exact ⟨_, exec_sknp_of_no_fault h, exec_sknp_of_no_fault h'⟩
  all_goals exact ⟨_, rfl, rfl⟩

/-- A change of the inputs that an instruction does not read passes through it, fault or not. -/
theorem exec_mapInputs {i : Instr} {f : Quirks → Quirks} {g : Byte → Byte} (s : State)
    (hf : readsQuirks i = true → f = id) (hg : readsRand i = true → g = id) :
    ∃ t, exec i s = .next t ∧ exec i (s.mapInputs f g) = .next (t.mapInputs f g) := by
  cases hc : faultCause i s with
  | some e =>
    have hc' : faultCause i (s.mapInputs f g) = some e := (faultCause_mapInputs s f g i).trans hc
    exact ⟨_, exec_of_faultCause_some hc, exec_of_faultCause_some hc'⟩
  | none => exact exec_mapInputs_of_faultCause_none hc hf hg

end Sys2Proof.Machine
end

-- ==== The engine cycle ====
section
/-! The step as a whole (spec/40_engine_cycle.md R79..R91): what it runs, what it answers, which inputs reach it and
what it leaves alone. -/

namespace Sys2Proof.Machine

/-! ### The stages of a step (R79, R82..R85) -/

/-- Settles O9: a running machine is past the first two stages of the step, its fetch succeeds, and its word decodes. -/
theorem stepRunsDecodedInstruction : Obligations.StepRunsDecodedInstruction := fun _ _ hrun hpc hd =>
  step_eq_exec hrun hpc hd

/-- A running machine latches `DecodeError` on an illegal word. -/
theorem step_eq_decodeError {s : State} {w : Word} (hrun : s.running) (hpc : s.pc.toNat ≤ 0xFFE)
    (hw : wordOfBytes (s.byteAt s.pc.toNat) (s.byteAt (s.pc.toNat + 1)) = w) (hd : decode w = none) :
    step s = .next (s.takeFault .decodeError (some w)) := by
  obtain ⟨hh, hwait⟩ := hrun
  simp [step, hh, hwait, State.fetchWord_of_le hpc, hw, hd]

/-- `DecodeError` is a fault of the decode stage alone: Table G1 gives it to no instruction. -/
theorem faultCause_ne_decodeError (i : Instr) (s : State) : faultCause i s ≠ some .decodeError := by
  cases i <;> simp [faultCause]

/-- No instruction latches `DecodeError` on a machine that is not halted. -/
theorem exec_fault_ne_decodeError {i : Instr} {s t : State} (hh : s.halted = false) (h : exec i s = .next t) :
    t.fault.code ≠ some .decodeError := by
  obtain ⟨f, hf, hx⟩ | ⟨-, u, hx, hu⟩ := exec_cases i s <;> rw [hx] at h <;> cases h
  · exact fun hcode => faultCause_ne_decodeError i s (hf.trans hcode)
  · rw [hu.fault, s.not_halted_iff.1 hh]
    exact nofun

/-- Settles O12: the rows of Table O1 are the decoder's (`wordSelectsItsRowOfTableO1`), so a word that matches none does
not decode, and one that matches a row is executed as an instruction of that row, which cannot raise `DecodeError`. -/
theorem illegalWordRaisesDecodeError : Obligations.IllegalWordRaisesDecodeError := by
  intro s w hrun hpc hw
  refine ⟨fun hnone => ?_, fun j hj => ?_⟩
  · have hd : decode w = none :=
      Option.eq_none_iff_forall_ne_some.2 fun i hi => hnone i (wordSelectsItsRowOfTableO1.1 w i hi)
    exact ⟨_, step_eq_decodeError hrun hpc hw hd, rfl, rfl, rfl⟩
  · obtain ⟨i, hd, hrow⟩ := wordSelectsItsRowOfTableO1.2 w j hj
    obtain ⟨t, ht⟩ := exec_answers i s
    exact ⟨i, t, hd, hrow, (step_eq_exec hrun hpc (hw ▸ hd)).trans ht, exec_fault_ne_decodeError hrun.1 ht⟩

/-! ### The result of a step (R79, R80, R81, R85, R86) -/

/-- The four results exclude each other, and each is read off the two states. -/
theorem stepResult_iff (s t : State) :
    (stepResult s t = .halted ↔ s.halted = true) ∧
    (stepResult s t = .waiting ↔ s.halted = false ∧ s.waiting = true) ∧
    (stepResult s t = .faulted ↔ s.running ∧ t.halted = true) ∧
    (stepResult s t = .ran ↔ s.running ∧ t.halted = false) := by
  unfold stepResult State.running
  cases s.halted with
  | true => simp
  | false =>
    cases s.waiting with
    | true => simp
    | false => cases t.halted <;> simp

/-- Settles O13: a bare step always answers (`step_answers`), and `step(b)` reads its result off the states before and
after it (`stepResult_iff`). -/
theorem everyStepAnswersNext : Obligations.EveryStepAnswersNext := by
  intro s b
  obtain ⟨t, ht⟩ := step_answers { s with rand := b }
  exact ⟨step_answers s, t, _, _, ht, by simp only [transact, stepWith, ht], rfl, stepResult_iff s _⟩

/-! ### The next pc (R87, R88) -/

/-- Settles O14: an illegal word and a faulting instruction write the latch alone; every other instruction follows Table
PC1 (`exec_followsCycle`). -/
theorem nextPcFollowsTablePC1 : Obligations.NextPcFollowsTablePC1 := by
  intro s t hrun hpc ht
  split
  next hd =>
    rw [step_eq_decodeError hrun hpc rfl hd] at ht
    cases ht
    rfl
  next i hd =>
    rw [step_eq_exec hrun hpc hd] at ht
    obtain ⟨f, hf, rfl⟩ | ⟨hf, hcycle⟩ := exec_followsCycle_or_faults ht
    · simp [hf]
    · simpa [hf] using hcycle.pc

/-! ### The timers and the keys (R89) -/

/-- A tick writes the timers alone (R143). -/
theorem tick_eq (s : State) : tick s = { s with dt := (tick s).dt, st := (tick s).st } := by
  unfold tick
  split <;> rfl

/-- A step leaves the keys and the timers as they were, or executes an instruction that follows the cycle. -/
theorem step_keeps_timers_or_executes {s t : State} (h : step s = .next t) :
    (t.key = s.key ∧ t.dt = s.dt ∧ t.st = s.st) ∨
    ∃ w i, s.fetchWord = some w ∧ decode w = some i ∧ FollowsCycle i s t := by
  obtain ⟨-, rfl⟩ | ⟨-, -, rfl⟩ | ⟨-, -, -, rfl⟩ | ⟨-, -, w, hfetch, ⟨-, rfl⟩ | ⟨i, hd, hx⟩⟩ := step_cases h
  · exact .inl ⟨rfl, rfl, rfl⟩
  · exact .inl ⟨rfl, rfl, rfl⟩
  · exact .inl ⟨rfl, rfl, rfl⟩
  · exact .inl ⟨rfl, rfl, rfl⟩
  · obtain ⟨f, -, rfl⟩ | ⟨-, hcycle⟩ := exec_followsCycle_or_faults hx
    · exact .inl ⟨rfl, rfl, rfl⟩
    · exact .inr ⟨w, i, hfetch, hd, hcycle⟩

/-- Settles O15: a step that changes a timer executes an instruction (`step_keeps_timers_or_executes`), and only `Fx15`
and `Fx18` do that (`FollowsCycle`). -/
theorem stepWritesTimersOnlyByFx15Fx18 : Obligations.StepWritesTimersOnlyByFx15Fx18 := by
  refine ⟨tick_eq, fun s t h => ?_⟩
  obtain ⟨hkey, hdt, hst⟩ | ⟨w, i, hfetch, hd, hcycle⟩ := step_keeps_timers_or_executes h
  · exact ⟨hkey, absurd hdt, absurd hst⟩
  · refine ⟨hcycle.key, fun hne => ?_, fun hne => ?_⟩
    · obtain ⟨x, rfl, hx⟩ := hcycle.dt.resolve_left hne
      exact ⟨w, x, hfetch, hd, hx⟩
    · obtain ⟨x, rfl, hx⟩ := hcycle.st.resolve_left hne
      exact ⟨w, x, hfetch, hd, hx⟩

/-! ### The random byte (R90) -/

/-- Settles O16: another random byte passes through every instruction that does not read it (`exec_mapInputs`). -/
theorem onlyRndReadsRand : Obligations.OnlyRndReadsRand := fun i s b hi =>
  exec_mapInputs (f := id) (g := fun _ => b) s (fun _ => rfl) fun hr => by simp [readsRand_eq_false hi] at hr

/-! ### The parameters (R12, R91) -/

/-- A step changes no parameter. -/
theorem step_cfg {s t : State} (h : step s = .next t) : t.cfg = s.cfg := by
  obtain ⟨-, rfl⟩ | ⟨-, -, rfl⟩ | ⟨-, -, -, rfl⟩ | ⟨-, -, w, -, ⟨-, rfl⟩ | ⟨i, -, hx⟩⟩ := step_cases h
  · rfl
  · rfl
  · rfl
  · rfl
  · obtain ⟨f, -, ht⟩ | ⟨-, u, ht, hu⟩ := exec_cases i s <;> rw [ht] at hx <;> cases hx
    · rfl
    · exact hu.cfg

/-- A key event changes no parameter, resolved wait or not. -/
theorem setKey_cfg (k : Key) (p : Bool) (s : State) : (setKey k p s).cfg = s.cfg := by
  unfold setKey
  split
  · rfl
  · exact (apply_ite State.cfg _ _ _).trans (ite_self _)

/-- No transaction changes a parameter (R12). -/
theorem transact_cfg {tr : Transaction} {s t : State} {r : TransactionResult} (h : transact tr s = .next (t, r)) :
    t.cfg = s.cfg := by
  cases tr with
  | step b =>
    obtain ⟨u, hu⟩ := step_answers { s with rand := b }
    simp only [transact, stepWith, hu] at h
    cases h
    exact (step_cfg hu :)
  | tick =>
    cases h
    rw [tick_eq]
  | setKey k p =>
    cases h
    exact setKey_cfg k p s
  | load bs =>
    by_cases hfit : bs.length ≤ 0xE00
    · rw [transact_load_of_fits hfit] at h
      cases h
      exact State.storeBytes_cfg ..
    · simp only [transact, load_of_too_large (Nat.lt_of_not_le hfit)] at h
      cases h
      rfl
  | reset =>
    cases h
    rfl

/-- Settles O17: other switches pass through every instruction that does not read them (`exec_mapInputs`), and each
transaction leaves the parameters alone (`transact_cfg`). -/
theorem onlyQuirkInstructionsReadQuirks : Obligations.OnlyQuirkInstructionsReadQuirks := by
  refine ⟨fun i s q h2 h1 => ?_, fun _ _ _ _ => transact_cfg⟩
  exact exec_mapInputs (f := fun _ => q) (g := id) s (fun hr => by simp [readsQuirks_eq_false h2 h1] at hr) fun _ => rfl

end Sys2Proof.Machine
end

-- ==== Control transfer and skips ====
section
/-! The jumps, the call and the return, and the skips on equality (spec/41_flow.md R94..R101): where they go, what the
call stack holds afterwards, and that nothing else changes. -/

namespace Sys2Proof.Machine

/-! ### Frames

What `Keeps` says of the shared operations: they write no more than `pc` and the stack. -/

section Frame

variable {regs : Reg → Prop} {fields : List Field} {s t u : State}

theorem Keeps.refl : Keeps regs fields s s :=
  ⟨rfl, rfl, rfl, fun _ _ => rfl, fun _ => rfl, fun _ => ⟨rfl, rfl⟩, fun _ => rfl, fun _ => rfl, fun _ => rfl,
    fun _ => rfl, fun _ _ => rfl, fun _ => ⟨rfl, rfl⟩⟩

theorem Keeps.trans (hst : Keeps regs fields s t) (htu : Keeps regs fields t u) : Keeps regs fields s u := by
  obtain ⟨hcfg, hkey, hfault, hv, hi, hstack, hdt, hstim, hfb, hws, hmem, hrand⟩ := hst
  obtain ⟨hcfg', hkey', hfault', hv', hi', hstack', hdt', hstim', hfb', hws', hmem', hrand'⟩ := htu
  exact ⟨hcfg'.trans hcfg, hkey'.trans hkey, hfault'.trans hfault, fun r hr => (hv' r hr).trans (hv r hr),
    fun h => (hi' h).trans (hi h), fun h => ⟨(hstack' h).1.trans (hstack h).1, (hstack' h).2.trans (hstack h).2⟩,
    fun h => (hdt' h).trans (hdt h), fun h => (hstim' h).trans (hstim h), fun h => (hfb' h).trans (hfb h),
    fun h => (hws' h).trans (hws h), fun h a => (hmem' h a).trans (hmem h a),
    fun h => ⟨(hrand' h).1.trans (hrand h).1, (hrand' h).2.trans (hrand h).2⟩⟩

/-- `pc` is outside every frame. -/
theorem Keeps.jump (h : Keeps regs fields s t) (target : Word) : Keeps regs fields s (t.jump target) := h

theorem Keeps.skipIf (h : Keeps regs fields s t) (taken : Bool) : Keeps regs fields s (t.skipIf taken) := h

/-- The stack pointer and the entries may change where the frame lists the stack. -/
theorem Keeps.setStack (h : Keeps regs fields s t) (hin : .stack ∈ fields) (sp : Fin 17) (stack : Vector Word 16) :
    Keeps regs fields s { t with sp := sp, stack := stack } := by
  obtain ⟨hcfg, hkey, hfault, hv, hi, -, hrest⟩ := h
  exact ⟨hcfg, hkey, hfault, hv, hi, absurd hin, hrest⟩

end Frame

/-! ### The jumps (R95, R101) -/

theorem zextAddr_toNat (nnn : BitVec 12) : (zextAddr nnn).toNat = nnn.toNat :=
  BitVec.toNat_setWidth_of_le (by decide)

/-- Settles O34: the targets are Table PC1's, and 12 bits widened to 16 keep their value. -/
theorem jumpTargets : Obligations.JumpTargets := by
  refine fun nnn s => ⟨⟨_, rfl, zextAddr_toNat nnn, Keeps.refl.jump _⟩, _, rfl, ?_, Keeps.refl.jump _⟩
  rw [State.jump_pc, zextAddr_add_zextByte, BitVec.toNat_ofNat]

/-! ### The call stack (R94, R96) -/

/-- Settles O35: a call pushes while an entry is free (`exec_call_of_lt`), and a full stack is the cause that Table G1
gives it. -/
theorem callPushesReturnAddress : Obligations.CallPushesReturnAddress := by
  intro nnn s
  by_cases hsp : s.sp.val < 16
  · refine ⟨_, exec_call_of_lt hsp, fun _ => ⟨rfl, zextAddr_toNat nnn, fun k hk => ?_, ?_⟩, fun h => by omega⟩
    · simp [Vector.getElem_set, eq_comm]
    · exact (Keeps.refl.setStack (by decide) _ _).jump _
  · have hfull : faultCause (.call nnn) s = some .stackOverflow := if_pos (by omega)
    exact ⟨_, exec_of_faultCause_some hfull, fun h => absurd h hsp, fun _ => ⟨rfl, rfl, rfl, rfl⟩⟩

/-- Table PC1's target of a return is the entry below `sp`. -/
theorem nextPc_ret {s : State} (h : 0 < s.sp.val) : nextPc .ret s = s.stack[s.sp.val - 1] := by
  have htop : s.sp.val - 1 < 16 := by omega
  simp [nextPc, htop]

/-- Settles O36: a return pops while an entry is in use (`exec_ret_of_no_fault`), and an empty stack is the cause that
Table G1 gives it. -/
theorem returnPopsReturnAddress : Obligations.ReturnPopsReturnAddress := by
  intro s
  by_cases hsp : s.sp.val = 0
  · have hempty : faultCause .ret s = some .stackUnderflow := if_pos hsp
    exact ⟨_, exec_of_faultCause_some hempty, fun h => absurd hsp h.ne', fun _ => rfl⟩
  · refine ⟨_, exec_ret_of_no_fault (if_neg hsp), fun h => ⟨rfl, nextPc_ret h, rfl, ?_⟩, fun h => absurd h hsp⟩
    exact (Keeps.refl.setStack (by decide) _ _).jump _

/-- Settles O37: the return pops the very entry that the call pushed, and the entries below it stay. -/
theorem returnUndoesCall : Obligations.ReturnUndoesCall := by
  intro nnn s t hlt hcall
  obtain ⟨_, ht, hpush, -⟩ := callPushesReturnAddress nnn s
  cases ht.symm.trans hcall
  obtain ⟨htsp, -, hentry, hframe⟩ := hpush hlt
  obtain ⟨u, hret, hpop, -⟩ := returnPopsReturnAddress t
  obtain ⟨husp, hupc, hstack, hframe'⟩ := hpop (by omega)
  refine ⟨u, hret, ?_, Fin.ext (by omega), fun k hk hbelow => ?_, hframe.trans hframe'⟩
  · rw [hupc, hentry _ (by omega), if_pos (by omega)]
  · rw [hstack, hentry k hk, if_neg (by omega)]

/-! ### The skips on equality (R97..R100) -/

theorem aluEq_iff {a b : Byte} : aluEq a b = true ↔ a = b := beq_iff_eq

theorem not_aluEq_iff {a b : Byte} : (!aluEq a b) = true ↔ a ≠ b := by simp [aluEq]

/-- What `3xnn` and `5xy0` do with the values they compare. -/
theorem skipIf_aluEq (s : State) (a b : Byte) :
    Keeps noReg [] s (s.skipIf (aluEq a b)) ∧
    (a = b → (s.skipIf (aluEq a b)).pc = s.pc + 4) ∧ (a ≠ b → (s.skipIf (aluEq a b)).pc = s.pc + 2) :=
  ⟨Keeps.refl.skipIf _, fun h => if_pos (aluEq_iff.2 h), fun h => if_neg (mt aluEq_iff.1 h)⟩

/-- What `4xnn` and `9xy0` do with the values they compare. -/
theorem skipIf_not_aluEq (s : State) (a b : Byte) :
    Keeps noReg [] s (s.skipIf !aluEq a b) ∧
    (a ≠ b → (s.skipIf !aluEq a b).pc = s.pc + 4) ∧ (a = b → (s.skipIf !aluEq a b).pc = s.pc + 2) :=
  ⟨Keeps.refl.skipIf _, fun h => if_pos (not_aluEq_iff.2 h), fun h => if_neg fun hne => not_aluEq_iff.1 hne h⟩

/-- Settles O38: both instructions compare `Vx` with the immediate. -/
theorem skipOnImmediate : Obligations.SkipOnImmediate := fun x nn s =>
  ⟨⟨_, rfl, skipIf_aluEq s (s.getV x) nn⟩, _, rfl, skipIf_not_aluEq s (s.getV x) nn⟩

/-- Settles O39: both instructions compare `Vx` with `Vy`, and one register equals itself. -/
theorem skipOnRegisters : Obligations.SkipOnRegisters := by
  intro x y s
  obtain ⟨hframe, heq, hne⟩ := skipIf_aluEq s (s.getV x) (s.getV y)
  obtain ⟨hframe', hne', heq'⟩ := skipIf_not_aluEq s (s.getV x) (s.getV y)
  exact ⟨⟨_, rfl, hframe, heq, hne, fun h => heq (congrArg s.getV h)⟩,
    _, rfl, hframe', hne', heq', fun h => heq' (congrArg s.getV h)⟩

end Sys2Proof.Machine
end

-- ==== Register instructions ====
section
/-! The loads, the arithmetic, the logic, the shifts and the random byte (spec/42_alu.md R103..R114): the value that
ends in `Vx`, the flag that ends in `VF`, and that nothing else changes. -/

namespace Sys2Proof.Machine

/-! ### Frames

What `Keeps` says of the register writes: they write registers of the frame and `pc`. -/

section Frame

variable {regs : Reg → Prop} {fields : List Field} {s t : State}

/-- `pc` is outside every frame. -/
theorem Keeps.advance (h : Keeps regs fields s t) : Keeps regs fields s t.advance := h

/-- A register may change where the frame lists it. -/
theorem Keeps.setV (h : Keeps regs fields s t) {x : Reg} (hin : regs x) (b : Byte) :
    Keeps regs fields s (t.setV x b) := by
  obtain ⟨hcfg, hkey, hfault, hv, hrest⟩ := h
  refine ⟨hcfg, hkey, hfault, fun r hr => ?_, hrest⟩
  have hne : r ≠ x := fun he => hr (he ▸ hin)
  rw [State.getV_setV, if_neg hne, hv r hr]

/-- The random input may change where the frame lists it. -/
theorem Keeps.setRand (h : Keeps regs fields s t) (hin : .rand ∈ fields) (b : Byte) (n : Nat) :
    Keeps regs fields s { t with rand := b, randCount := n } := by
  obtain ⟨hcfg, hkey, hfault, hv, hi, hstack, hdt, hst, hfb, hws, hmem, -⟩ := h
  exact ⟨hcfg, hkey, hfault, hv, hi, hstack, hdt, hst, hfb, hws, hmem, absurd hin⟩

end Frame

/-! ### The functions of `alu_8bit` and their flags (R102 Table A1) -/

theorem aluAdd_toNat (a b : Byte) : (aluAdd a b).toNat = (a.toNat + b.toNat) % 256 := BitVec.toNat_add a b

theorem aluSub_toNat (a b : Byte) : (aluSub a b).toNat = (256 + a.toNat - b.toNat) % 256 := by
  have hb : b.toNat < 256 := b.isLt
  rw [aluSub, BitVec.toNat_sub]
  omega

theorem aluShr_toNat (a : Byte) : (aluShr a).toNat = a.toNat / 2 := by
  rw [aluShr, BitVec.toNat_ushiftRight, Nat.shiftRight_one]

theorem aluShl_toNat (a : Byte) : (aluShl a).toNat = 2 * a.toNat % 256 := by
  rw [aluShl, BitVec.toNat_shiftLeft, Nat.shiftLeft_eq, Nat.mul_comm]

/-- A flag that a comparison computes. -/
theorem flagByte_decide (p : Prop) [Decidable p] : flagByte (decide p) = if p then 1 else 0 :=
  if_congr decide_eq_true_iff rfl rfl

theorem flagByte_toNat (c : Bool) : (flagByte c).toNat = c.toNat := by cases c <;> rfl

/-- The bit a right shift puts out is the lowest. -/
theorem flagByte_aluShrOut_toNat (a : Byte) : (flagByte (aluShrOut a)).toNat = a.toNat % 2 := by
  rw [flagByte_toNat, aluShrOut, BitVec.getLsbD, Nat.toNat_testBit, Nat.pow_zero, Nat.div_one]

/-- The bit a left shift puts out is the highest of the eight, so nothing stands above it. -/
theorem flagByte_aluShlOut_toNat (a : Byte) : (flagByte (aluShlOut a)).toNat = a.toNat / 128 := by
  have ha : a.toNat < 256 := a.isLt
  rw [flagByte_toNat, aluShlOut, BitVec.getLsbD, Nat.toNat_testBit]
  omega

/-! ### The loads and the addition without a flag (R103, R104, R105) -/

/-- What `6xnn`, `7xnn` and `8xy0` do with the byte they write. -/
theorem setV_advance_effect (s : State) (x : Reg) (b : Byte) :
    (s.setV x b).advance.getV x = b ∧ (s.setV x b).advance.pc = s.pc + 2 ∧
    Keeps (· = x) [] s (s.setV x b).advance :=
  ⟨by simp, rfl, (Keeps.refl.setV (regs := (· = x)) rfl b).advance⟩

/-- Settles O25: the byte written is the immediate. -/
theorem loadImmediate : Obligations.LoadImmediate := fun x nn s => ⟨_, rfl, setV_advance_effect s x nn⟩

/-- Settles O26: the byte written is `ADD`'s result, and its carry goes nowhere. -/
theorem addImmediateWithoutCarry : Obligations.AddImmediateWithoutCarry := by
  intro x nn s
  obtain ⟨hx, hrest⟩ := setV_advance_effect s x (aluAdd (s.getV x) nn)
  exact ⟨_, rfl, by rw [hx, aluAdd_toNat], hrest⟩

/-- Settles O27: the byte written is `Vy`'s. -/
theorem copyRegister : Obligations.CopyRegister := fun x y s => ⟨_, rfl, setV_advance_effect s x (s.getV y)⟩

/-! ### The random byte (R114) -/

/-- Settles O33: the byte written is the random byte under the mask, and only the random input changes beside it. -/
theorem randomByteMasked : Obligations.RandomByteMasked := by
  intro x nn b s
  have hx : ({ s with rand := b }.setV x (aluAnd b nn)).drawRandom.advance.getV x = b &&& nn := by simp [aluAnd]
  refine ⟨_, rfl, hx, fun hnn => ?_, rfl, ?_⟩
  · rw [hx, hnn]
    exact BitVec.and_zero
  · exact ((Keeps.refl.setV (regs := (· = x)) rfl _).setRand (by decide) _ _).advance

/-! ### A result and a flag (R15, R26) -/

/-- `VF` is written last, so it holds the flag even where `x` is 15. -/
theorem writeFlagged_effect (s : State) (x : Reg) (b : Byte) (c : Bool) :
    (s.writeFlagged x b c).getV 15 = flagByte c ∧ (x ≠ 15 → (s.writeFlagged x b c).getV x = b) ∧
    (s.writeFlagged x b c).pc = s.pc + 2 ∧ Keeps (fun r => r = x ∨ r = 15) [] s (s.writeFlagged x b c) := by
  refine ⟨?_, fun hx => ?_, rfl, ?_⟩
  · exact (State.writeFlagged_getV ..).trans (if_pos rfl)
  · exact (State.writeFlagged_getV ..).trans ((if_neg hx).trans (if_pos rfl))
  · exact ((Keeps.refl.setV (.inl rfl) b).setV (.inr rfl) (flagByte c)).advance

/-! ### The logic instructions (R106, R107, R108) -/

/-- What the three logic instructions do with their result under either value of `QUIRK_LOGIC_VF_RESET`. -/
theorem writeLogic_effect (s : State) (x : Reg) (b : Byte) :
    (s.writeLogic x b).pc = s.pc + 2 ∧
    (s.cfg.quirks.logicVfReset = true →
      (s.writeLogic x b).getV 15 = 0 ∧ Keeps (fun r => r = x ∨ r = 15) [] s (s.writeLogic x b)) ∧
    (s.cfg.quirks.logicVfReset = false → Keeps (· = x) [] s (s.writeLogic x b)) ∧
    (s.cfg.quirks.logicVfReset = false ∨ x ≠ 15 → (s.writeLogic x b).getV x = b) := by
  unfold State.writeLogic
  cases s.cfg.quirks.logicVfReset with
  | true =>
    obtain ⟨hvf, hx, hpc, hframe⟩ := writeFlagged_effect s x b false
    exact ⟨hpc, fun _ => ⟨hvf, hframe⟩, nofun, fun h => hx (h.resolve_left nofun)⟩
  | false =>
    obtain ⟨hx, hpc, hframe⟩ := setV_advance_effect s x b
    exact ⟨hpc, nofun, fun _ => hframe, fun _ => hx⟩

/-- Settles O28: each of the three results is its operator bit by bit, and `writeLogic_effect` says where it goes. -/
theorem logicInstructions : Obligations.LogicInstructions := by
  intro x y s i f hif
  have hexec : ∃ b, exec i s = .next (s.writeLogic x b) ∧
      ∀ k, b.getLsbD k = f ((s.getV x).getLsbD k) ((s.getV y).getLsbD k) := by
    simp only [List.mem_cons, Prod.mk.injEq, List.not_mem_nil, or_false] at hif
    obtain ⟨rfl, rfl⟩ | ⟨rfl, rfl⟩ | ⟨rfl, rfl⟩ := hif
    · exact ⟨_, rfl, fun _ => BitVec.getLsbD_or⟩
    · exact ⟨_, rfl, fun _ => BitVec.getLsbD_and⟩
    · exact ⟨_, rfl, fun _ => BitVec.getLsbD_xor⟩
  obtain ⟨b, hnext, hbits⟩ := hexec
  obtain ⟨hpc, hquirk, hplain, hx⟩ := writeLogic_effect s x b
  exact ⟨_, hnext, hpc, hquirk, hplain, fun h k _ => by rw [hx h, hbits]⟩

/-! ### The instructions that write a flag (R109..R113) -/

/-- `writeFlagged_effect` with the result as a number, the form of the statements below. -/
theorem writeFlagged_effect_toNat (s : State) (x : Reg) {b f : Byte} {c : Bool} {n : Nat} (hc : flagByte c = f)
    (hb : b.toNat = n) :
    (s.writeFlagged x b c).getV 15 = f ∧ (x ≠ 15 → ((s.writeFlagged x b c).getV x).toNat = n) ∧
    (s.writeFlagged x b c).pc = s.pc + 2 ∧ Keeps (fun r => r = x ∨ r = 15) [] s (s.writeFlagged x b c) := by
  subst hc hb
  obtain ⟨hvf, hx, hrest⟩ := writeFlagged_effect s x b c
  exact ⟨hvf, fun h => congrArg BitVec.toNat (hx h), hrest⟩

/-- Settles O29: the result and the carry are `ADD`'s. -/
theorem addRegistersWithCarry : Obligations.AddRegistersWithCarry := fun x y s =>
  ⟨_, rfl, writeFlagged_effect_toNat s x (flagByte_decide _) (aluAdd_toNat (s.getV x) (s.getV y))⟩

/-- Settles O30: the result and the not-borrow are those of `SUB` on `Vx` and `Vy`. -/
theorem subtractWithNotBorrow : Obligations.SubtractWithNotBorrow := fun x y s =>
  ⟨_, rfl, writeFlagged_effect_toNat s x (flagByte_decide _) (aluSub_toNat (s.getV x) (s.getV y))⟩

/-- Settles O31: the result and the not-borrow are those of `SUB` on `Vy` and `Vx`. -/
theorem subtractReversedWithNotBorrow : Obligations.SubtractReversedWithNotBorrow := fun x y s =>
  ⟨_, rfl, writeFlagged_effect_toNat s x (flagByte_decide _) (aluSub_toNat (s.getV y) (s.getV x))⟩

/-- Settles O32: both instructions shift the same operand, and each flag is the bit its shift loses. -/
theorem shiftsByOne : Obligations.ShiftsByOne := by
  intro x y s v
  have hv : (s.shiftOperand x y).toNat = v := apply_ite BitVec.toNat _ _ _
  obtain ⟨hflag, hright⟩ := writeFlagged_effect_toNat s x rfl (aluShr_toNat (s.shiftOperand x y))
  obtain ⟨hflag', hleft⟩ := writeFlagged_effect_toNat s x rfl (aluShl_toNat (s.shiftOperand x y))
  rw [← hv]
  refine ⟨⟨_, rfl, ?_, hright⟩, _, rfl, ?_, hleft⟩
  · rw [hflag, flagByte_aluShrOut_toNat]
  · rw [hflag', flagByte_aluShlOut_toNat]

end Sys2Proof.Machine
end

-- ==== Index register and memory ====
section
/-! The instructions that set `I` and that move bytes between the registers and memory (spec/43_index_memory.md
R115..R120): what ends in `I`, in memory and in the registers, that nothing else changes, and that an access above 0xFFF
faults before anything is written. -/

namespace Sys2Proof.Machine

/-! ### Frames

What `Keeps` says of the writes to `I`, to memory and to a range of registers. -/

section Frame

variable {regs : Reg → Prop} {fields : List Field} {s t : State}

/-- `I` may change where the frame lists it. -/
theorem Keeps.setIndex (h : Keeps regs fields s t) (hin : .i ∈ fields) (w : Word) :
    Keeps regs fields s { t with i := w } := by
  obtain ⟨hcfg, hkey, hfault, hv, -, hrest⟩ := h
  exact ⟨hcfg, hkey, hfault, hv, absurd hin, hrest⟩

theorem Keeps.advanceIndex (h : Keeps regs fields s t) (hin : .i ∈ fields) (x : Reg) :
    Keeps regs fields s (t.advanceIndex x) := h.setIndex hin _

/-- Memory may change where the frame lists it. -/
theorem Keeps.setMem (h : Keeps regs fields s t) (hin : .mem ∈ fields) (m : Memory) :
    Keeps regs fields s { t with mem := m } := by
  obtain ⟨hcfg, hkey, hfault, hv, hi, hstack, hdt, hst, hfb, hws, -, hrand⟩ := h
  exact ⟨hcfg, hkey, hfault, hv, hi, hstack, hdt, hst, hfb, hws, absurd hin, hrand⟩

theorem Keeps.storeBytes (h : Keeps regs fields s t) (hin : .mem ∈ fields) (a : Nat) (bs : List Byte) :
    Keeps regs fields s (t.storeBytes a bs) := by
  rw [State.storeBytes_eq]
  exact h.setMem hin _

/-- Registers may change one after another where the frame lists each of them. -/
theorem Keeps.setRegs (h : Keeps regs fields s t) {l : List (Reg × Byte)} (hin : ∀ c ∈ l, regs c.1) :
    Keeps regs fields s (t.setRegs l) := by
  induction l generalizing t with
  | nil => exact h
  | cons c l ih =>
    obtain ⟨hc, hl⟩ := List.forall_mem_cons.1 hin
    exact ih (h.setV hc c.2) hl

end Frame

/-! ### Setting `I` (R115, R116, R117) -/

/-- What `Annn` and `Fx29` do beside the value they give `I`, and `Fx1E` too when it writes no flag. -/
theorem setIndex_advance_effect (s : State) (w : Word) :
    (State.advance { s with i := w }).pc = s.pc + 2 ∧ Keeps noReg [.i] s (State.advance { s with i := w }) :=
  ⟨rfl, (Keeps.refl.setIndex (by decide) w).advance⟩

/-- Settles O40: 12 bits widened to 16 keep their value. -/
theorem loadIndex : Obligations.LoadIndex := fun nnn s =>
  ⟨_, rfl, zextAddr_toNat nnn, setIndex_advance_effect s (zextAddr nnn)⟩

/-- The sum wraps at 0x10000 and nowhere below (D9). -/
theorem add_zextByte_toNat (w : Word) (b : Byte) : (w + zextByte b).toNat = (w.toNat + b.toNat) % 0x10000 := by
  rw [BitVec.toNat_add, zextByte, BitVec.toNat_setWidth_of_le (by decide)]

/-- Settles O41, under either value of `QUIRK_FX1E_VF`: the flag is a write to `VF` after the same write to `I`. -/
theorem addToIndex : Obligations.AddToIndex := by
  intro x s
  have hsum := add_zextByte_toNat s.i (s.getV x)
  obtain ⟨hpc, hframe⟩ := setIndex_advance_effect s (s.i + zextByte (s.getV x))
  refine ⟨_, rfl, ?_⟩
  cases s.cfg.quirks.fx1eVf with
  | true =>
    refine ⟨hsum, hpc, fun _ => ⟨?_, ?_⟩, nofun⟩
    · exact (State.getV_setVF ..).trans ((if_pos rfl).trans (flagByte_decide _))
    · exact ((Keeps.refl.setIndex (fields := [.i]) (by decide) _).setV (regs := (· = 15)) rfl _).advance
  | false => exact ⟨hsum, hpc, nofun, fun _ => hframe⟩

theorem toNat_ofNat_of_lt {w n : Nat} (h : n < 2 ^ w) : (BitVec.ofNat w n).toNat = n :=
  (BitVec.toNat_ofNat n w).trans (Nat.mod_eq_of_lt h)

/-- The address of a glyph fits in 16 bits for every value of `Vx`, so the modulus of `I` never acts (log 18). -/
theorem glyphAddress_toNat (base : Fin 433) (b : Byte) :
    (BitVec.ofNat 16 (base.val + 5 * b.toNat)).toNat = base.val + 5 * b.toNat := by
  have hb : b.toNat < 256 := b.isLt
  exact toNat_ofNat_of_lt (by omega)

/-- The bytes from `FONT_BASE` up are the glyphs as long as nothing is written there (R154, R156). -/
theorem Memory.background_font (c : Config) {j : Nat} (hj : j < 80) :
    Memory.background c (c.fontBase.val + j) = c.fontGlyphs[j] := by
  rw [Memory.background, dif_pos (by omega)]
  simp only [Nat.add_sub_cancel_left]

/-- Where memory lists no byte and `Vx` is the digit `d`, the byte `k` past the address that `Fx29` computes is byte `k`
of the glyph of `d` (R117, R156). -/
theorem State.byteAt_glyph {s : State} {x : Reg} {d k : Nat} (hm : s.mem = []) (hx : (s.getV x).toNat = d)
    (hj : 5 * d + k < 80) :
    s.byteAt ((BitVec.ofNat 16 (s.cfg.fontBase.val + 5 * (s.getV x).toNat)).toNat + k) =
      s.cfg.fontGlyphs[5 * d + k] := by
  rw [State.byteAt, hm, Memory.read, glyphAddress_toNat, hx, Nat.add_assoc, Memory.background_font s.cfg hj]

/-- Settles O42: construction stores nothing, so the font stands where `Fx29` points (`State.byteAt_glyph`). -/
theorem pointAtGlyph : Obligations.PointAtGlyph := by
  refine ⟨fun x s => ⟨_, rfl, glyphAddress_toNat s.cfg.fontBase (s.getV x), setIndex_advance_effect s _⟩,
    fun c x d k => ⟨_, rfl, ?_⟩⟩
  have hx : (((State.construct c).setV x (BitVec.ofNat 8 d.val)).getV x).toNat = d.val := by
    rw [State.getV_setV, if_pos rfl, toNat_ofNat_of_lt (by omega)]
  exact State.byteAt_glyph rfl hx (by omega)

/-! ### Storing bytes (R118, R119) -/

/-- The byte read inside a store is the stored one. -/
theorem State.byteAt_storeBytes_getElem (s : State) (a : Nat) (bs : List Byte) {k : Nat} (hk : k < bs.length) :
    (s.storeBytes a bs).byteAt (a + k) = bs[k] := by
  rw [State.byteAt_storeBytes, dif_pos (by omega)]
  simp only [Nat.add_sub_cancel_left]

/-- `State.byteAt_storeBytes_getElem` for a stored byte that is known as a number. -/
theorem State.byteAt_storeBytes_toNat (s : State) (a : Nat) {bs : List Byte} {k n : Nat}
    (hb : bs[k]? = some (BitVec.ofNat 8 n)) (hn : n < 256) : ((s.storeBytes a bs).byteAt (a + k)).toNat = n := by
  obtain ⟨hk, hget⟩ := List.getElem?_eq_some_iff.1 hb
  rw [s.byteAt_storeBytes_getElem a bs hk, hget, toNat_ofNat_of_lt hn]

/-- Settles O43: an `I` that leaves room for three bytes completes (`exec_ldB_of_le`), and any other is the cause that
Table G1 gives `Fx33`. -/
theorem storeDecimalDigits : Obligations.StoreDecimalDigits := by
  intro x s
  by_cases hin : s.i.toNat + 2 ≤ 0xFFF
  · have hv : (s.getV x).toNat < 256 := (s.getV x).isLt
    refine ⟨_, exec_ldB_of_le hin, fun _ => ⟨by simp, ?_, ?_, ?_, ?_, ?_⟩, fun h => by omega⟩
    · exact (Keeps.refl.storeBytes (by decide) _ _).advance
    · exact s.byteAt_storeBytes_toNat _ (k := 0) rfl (by omega)
    · exact s.byteAt_storeBytes_toNat _ (k := 1) rfl (by omega)
    · exact s.byteAt_storeBytes_toNat _ (k := 2) rfl (by omega)
    · exact fun a ha => s.byteAt_storeBytes_outside _ _ ha
  · have hout : faultCause (.ldB x) s = some .memoryOutOfRange := if_pos (by omega)
    exact ⟨_, exec_of_faultCause_some hout, fun h => absurd h hin, fun _ => ⟨rfl, fun _ => rfl⟩⟩

/-- `I` after a register range, under either value of `QUIRK_LDST_ADVANCE_I`. -/
theorem State.advanceIndex_i_toNat (s : State) (x : Reg) :
    (s.advanceIndex x).i.toNat =
      if s.cfg.quirks.ldstAdvanceI then (s.i.toNat + x.val + 1) % 0x10000 else s.i.toNat := by
  rw [State.advanceIndex_i, apply_ite BitVec.toNat, BitVec.toNat_add, BitVec.toNat_ofNat, Nat.add_mod_mod,
    Nat.add_assoc]

/-- Settles O44: an `I` that leaves room for the range completes (`exec_storeRegs_of_le`), and any other is the cause
that Table G1 gives `Fx55`. -/
theorem storeRegisterRange : Obligations.StoreRegisterRange := by
  intro x s
  by_cases hin : s.i.toNat + x.val ≤ 0xFFF
  · have hlen : (s.bytesUpTo x).length = x.val + 1 := s.bytesUpTo_length x
    refine ⟨_, exec_storeRegs_of_le hin, fun _ => ⟨by simp, ?_, fun k hk => ?_, fun a ha => ?_, ?_⟩,
      fun h => by omega⟩
    · exact ((Keeps.refl.storeBytes (by decide) _ _).advanceIndex (by decide) x).advance
    · have hk' : k.val < (s.bytesUpTo x).length := hlen ▸ Nat.lt_succ_of_le hk
      exact (s.byteAt_storeBytes_getElem _ _ hk').trans (s.bytesUpTo_getElem x k hk')
    · exact s.byteAt_storeBytes_outside _ _ (by omega)
    · rw [State.advance_i, State.advanceIndex_i_toNat, State.storeBytes_cfg, State.storeBytes_i]
  · have hout : faultCause (.storeRegs x) s = some .memoryOutOfRange := if_pos (by omega)
    exact ⟨_, exec_of_faultCause_some hout, fun h => absurd h hin, fun _ => ⟨rfl, fun _ => rfl⟩⟩

/-! ### Loading registers (R120) -/

theorem exec_loadRegs_of_le {s : State} {x : Reg} (h : s.i.toNat + x.val ≤ 0xFFF) :
    exec (.loadRegs x) s = .next ((s.setRegs
      ((regsUpTo x).map fun k => (k, s.byteAt (s.i.toNat + k.val)))).advanceIndex x).advance :=
  exec_loadRegs_of_no_fault (if_neg (by omega))

/-- Settles O45: an `I` that leaves room for the range completes (`exec_loadRegs_of_le`), and any other is the cause
that Table G1 gives `Fx65`. -/
theorem loadRegisterRange : Obligations.LoadRegisterRange := by
  intro x s
  by_cases hin : s.i.toNat + x.val ≤ 0xFFF
  · refine ⟨_, exec_loadRegs_of_le hin, fun _ => ⟨by simp, ?_, fun k hk => ?_, ?_⟩, fun h => by omega⟩
    · exact ((Keeps.refl.setRegs (by simp)).advanceIndex (by decide) x).advance
    · exact (s.getV_setRegs_map (fun k => s.byteAt (s.i.toNat + k.val)) _ k).trans (if_pos ((mem_regsUpTo x k).2 hk))
    · rw [State.advance_i, State.advanceIndex_i_toNat, State.setRegs_cfg, State.setRegs_i]
  · have hout : faultCause (.loadRegs x) s = some .memoryOutOfRange := if_pos (by omega)
    exact ⟨_, exec_of_faultCause_some hout, fun h => absurd h hin, fun _ => ⟨rfl, fun _ => rfl⟩⟩

end Sys2Proof.Machine
end

-- ==== Display ====
section
/-! The two instructions that write the screen (spec/44_display.md R121..R123): the cells they change, the collision
flag, and that nothing else changes. -/

namespace Sys2Proof.Machine

/-- The screen may change where the frame lists it. -/
theorem Keeps.setFb {regs : Reg → Prop} {fields : List Field} {s t : State} (h : Keeps regs fields s t)
    (hin : .fb ∈ fields) (fb : Framebuffer) : Keeps regs fields s { t with fb := fb } := by
  obtain ⟨hcfg, hkey, hfault, hv, hi, hstack, hdt, hst, -, hrest⟩ := h
  exact ⟨hcfg, hkey, hfault, hv, hi, hstack, hdt, hst, absurd hin, hrest⟩

/-- Settles O47: the screen that `00E0` writes is clear in every cell. -/
theorem clearScreen : Obligations.ClearScreen := fun _ =>
  ⟨_, rfl, Framebuffer.cell_clear, rfl, (Keeps.refl.setFb (by decide) _).advance⟩

section Draw

variable {s t : State} {x y : Reg} {n : Nat}

/-- The cells that `Dxyn` flips are those that its sprite covers. -/
theorem mem_spriteCells_iff_spriteCovers {px : Fin 64} {py : Fin 32} :
    (px, py) ∈ spriteCells (s.spriteCol x) (s.spriteRow y) (s.loadBytes s.i.toNat n) ↔
      spriteCovers s x y n px py := by
  simp only [mem_spriteCells, spriteCovers, State.loadBytes_length, State.loadBytes_getElem, exists_prop,
    Prod.mk.injEq, Fin.ext_iff, Fin.val_ofNat, State.spriteCol, State.spriteRow]

/-- The rows of a sprite drawn on the screen: the covered cells are inverted, the others stay, and the flag tells whether
a covered cell was on (R122). -/
theorem drawRows_loadBytes (hn : n ≤ 32) :
    let d := Drawing.drawRows (s.spriteCol x) (s.spriteRow y) (s.loadBytes s.i.toNat n) (s.fb, false)
    (∀ px py, (spriteCovers s x y n px py → Framebuffer.cell d.1 px py = !Framebuffer.cell s.fb px py) ∧
      (¬ spriteCovers s x y n px py → Framebuffer.cell d.1 px py = Framebuffer.cell s.fb px py)) ∧
    (d.2 = true ↔ ∃ px py, spriteCovers s x y n px py ∧ Framebuffer.cell s.fb px py = true) := by
  have hdistinct := spriteCells_nodup (s.spriteCol x) (s.spriteRow y) (s.loadBytes s.i.toNat n)
    (by rwa [State.loadBytes_length])
  obtain ⟨hcell, hflag⟩ := Drawing.flipAll_spec _ hdistinct (s.fb, false)
  rw [Drawing.drawRows_eq]
  refine ⟨fun px py => ⟨fun h => ?_, fun h => ?_⟩, ?_⟩
  · rw [hcell, decide_eq_true (mem_spriteCells_iff_spriteCovers.2 h), Bool.xor_true]
  · rw [hcell, decide_eq_false (mt mem_spriteCells_iff_spriteCovers.1 h), Bool.xor_false]
  · simp [hflag, mem_spriteCells_iff_spriteCovers]

/-- A change of the screen and of `VF` moves no sprite, unless `VF` gives its place. -/
theorem Keeps.spriteCovers_iff (h : Keeps (· = 15) [.fb] s t) (hx : x ≠ 15) (hy : y ≠ 15) {px : Fin 64} {py : Fin 32} :
    spriteCovers t x y n px py ↔ spriteCovers s x y n px py := by
  obtain ⟨-, -, -, hv, hi, -, -, -, -, -, hmem, -⟩ := h
  simp only [spriteCovers, hv x hx, hv y hy, hi (by decide), hmem (by decide)]

end Draw

/-- Settles O48: the sprite's cells are distinct, so each is flipped once (`drawRows_loadBytes`), and the flag is written
after them. -/
theorem drawInvertsCoveredCells : Obligations.DrawInvertsCoveredCells := by
  intro x y n s hn hin
  obtain ⟨hcell, hflag⟩ := drawRows_loadBytes (s := s) (x := x) (y := y) (n := n) (by omega)
  have hvf (fb : Framebuffer) (c : Bool) : (State.setVF { s with fb := fb } c).advance.getV 15 = flagByte c :=
    (State.getV_setVF ..).trans (if_pos rfl)
  refine ⟨_, exec_drw_of_no_fault (if_neg (by omega)), rfl, ?_, hcell, fun h => ?_, fun h => ?_⟩
  · exact ((Keeps.refl.setFb (by decide) _).setV (regs := (· = 15)) rfl _).advance
  · rw [hvf, hflag.2 h]
    rfl
  · have hoff := Bool.eq_false_iff.2 fun hon => by
      obtain ⟨px, py, hcov, hc⟩ := hflag.1 hon
      simp [h px py hcov] at hc
    rw [hvf, hoff]
    rfl

/-- Settles O49: the second draw covers the cells that the first one covered and inverts them again; what it finds on is
what the first one found off. -/
theorem drawTwiceRestoresScreen : Obligations.DrawTwiceRestoresScreen := by
  intro x y n s t hn hin hx hy hdraw
  obtain ⟨_, ht, -, hframe, hcell, -⟩ := drawInvertsCoveredCells x y n s hn hin
  cases ht.symm.trans hdraw
  have hcov {px py} := hframe.spriteCovers_iff (n := n) hx hy (px := px) (py := py)
  have hi : t.i = s.i := by
    obtain ⟨-, -, -, -, hi, -⟩ := hframe
    exact hi (by decide)
  obtain ⟨u, hu, -, -, hcell', hon, hoff⟩ := drawInvertsCoveredCells x y n t hn (hi ▸ hin)
  simp only [hcov] at hcell' hon hoff
  refine ⟨u, hu, Framebuffer.ext_cell fun px py => ?_, fun hvf => ?_, fun ⟨px, py, hc, hs⟩ => hon ⟨px, py, hc, ?_⟩⟩
  · by_cases hc : spriteCovers s x y n px py
    · rw [(hcell' px py).1 hc, (hcell px py).1 hc, Bool.not_not]
    · rw [(hcell' px py).2 hc, (hcell px py).2 hc]
  · by_contra hnone
    have hzero : u.getV 15 = 0 := hoff fun px py hc => by
      have hs : Framebuffer.cell s.fb px py = true :=
        Bool.eq_true_of_not_eq_false fun hs => hnone ⟨px, py, hc, hs⟩
      rw [(hcell px py).1 hc, hs, Bool.not_true]
    exact absurd (hvf.symm.trans hzero) (by decide)
  · rw [(hcell px py).1 hc, hs, Bool.not_false]

end Sys2Proof.Machine
end

-- ==== Keypad and timers ====
section
/-! The key skips, the reads and writes of the timers and the wait for a key (spec/45_keypad_timer.md R124..R129): what
each of them writes, and that nothing else changes. -/

namespace Sys2Proof.Machine

/-! ### Frames

What `Keeps` says of the writes to the timers and to the wait state. -/

section Frame

variable {regs : Reg → Prop} {fields : List Field} {s t : State}

/-- The delay timer may change where the frame lists it. -/
theorem Keeps.setDt (h : Keeps regs fields s t) (hin : .dt ∈ fields) (b : Byte) :
    Keeps regs fields s { t with dt := b } := by
  obtain ⟨hcfg, hkey, hfault, hv, hi, hstack, -, hrest⟩ := h
  exact ⟨hcfg, hkey, hfault, hv, hi, hstack, absurd hin, hrest⟩

/-- The sound timer may change where the frame lists it. -/
theorem Keeps.setSt (h : Keeps regs fields s t) (hin : .st ∈ fields) (b : Byte) :
    Keeps regs fields s { t with st := b } := by
  obtain ⟨hcfg, hkey, hfault, hv, hi, hstack, hdt, -, hrest⟩ := h
  exact ⟨hcfg, hkey, hfault, hv, hi, hstack, hdt, absurd hin, hrest⟩

/-- The wait state may change where the frame lists it. -/
theorem Keeps.setWs (h : Keeps regs fields s t) (hin : .ws ∈ fields) (w : WaitState) :
    Keeps regs fields s { t with ws := w } := by
  obtain ⟨hcfg, hkey, hfault, hv, hi, hstack, hdt, hst, hfb, -, hrest⟩ := h
  exact ⟨hcfg, hkey, hfault, hv, hi, hstack, hdt, hst, hfb, absurd hin, hrest⟩

end Frame

/-! ### The key skips (R124, R125) -/

/-- A skip on the opposite answer. -/
theorem State.skipIf_not_pc (s : State) (c : Bool) :
    (s.skipIf !c).pc = if c then s.pc + 2 else s.pc + 4 := by
  cases c <;> rfl

/-- Settles O50: a value that names a key is no cause of Table G1, and the key it names is `Vx mod 16`; a value above 15
under the policy `fault` is the cause that Table G1 gives both instructions. -/
theorem keySkips : Obligations.KeySkips := by
  refine fun x s => ⟨fun hnamed k hk => ?_, fun habove hpolicy => ?_⟩
  · have hno : ¬ ((s.getV x).toNat > 15 ∧ s.cfg.keyIndexPolicy = .fault) := by
      rintro ⟨habove, hpolicy⟩
      obtain hle | hmask := hnamed
      · omega
      · exact absurd (hpolicy.symm.trans hmask) (by decide)
    obtain rfl : Fin.ofNat 16 (s.getV x).toNat = k := Fin.ext hk.symm
    exact ⟨⟨_, exec_skp_of_no_fault (if_neg hno), Keeps.refl.skipIf _, rfl⟩,
      _, exec_sknp_of_no_fault (if_neg hno), Keeps.refl.skipIf _, s.skipIf_not_pc _⟩
  · have hskp : faultCause (.skp x) s = some .keyIndexOutOfRange := if_pos ⟨habove, hpolicy⟩
    have hsknp : faultCause (.sknp x) s = some .keyIndexOutOfRange := if_pos ⟨habove, hpolicy⟩
    exact ⟨⟨_, exec_of_faultCause_some hskp, rfl⟩, _, exec_of_faultCause_some hsknp, rfl⟩

/-! ### The timers (R126, R128, R129) -/

/-- Settles O51: the byte written is the delay timer's. -/
theorem readDelayTimer : Obligations.ReadDelayTimer := fun x s => ⟨_, rfl, setV_advance_effect s x s.dt⟩

/-- Settles O52: the delay timer is the one field written beside `pc`. -/
theorem writeDelayTimer : Obligations.WriteDelayTimer := fun _ _ =>
  ⟨_, rfl, rfl, rfl, (Keeps.refl.setDt (by decide) _).advance⟩

/-- Settles O53: the sound timer is the one field written beside `pc`, and the port reads that field. -/
theorem writeSoundTimer : Obligations.WriteSoundTimer := fun _ _ =>
  ⟨_, rfl, rfl, rfl, rfl, (Keeps.refl.setSt (by decide) _).advance⟩

/-! ### The wait for a key (R127) -/

/-- A waiting machine's step changes nothing, halted or not (R80, R81). -/
theorem step_of_waiting {s : State} (h : s.waiting = true) : step s = .next s := by
  cases hh : s.halted with
  | true => exact if_pos hh
  | false => simp only [step, hh, h, if_true, Bool.false_eq_true, if_false]

/-- Settles O54: the wait state is the one field written, and a machine in it steps to itself (`step_of_waiting`). -/
theorem waitForKey : Obligations.WaitForKey := fun _ _ =>
  ⟨_, rfl, rfl, rfl, rfl, rfl, Keeps.refl.setWs (by decide) _, step_of_waiting rfl⟩

end Sys2Proof.Machine
end

-- ==== Faults ====
section
/-! The faults of Table G1 (spec/60_exceptions.md R130..R137): which instruction raises which of them and when, what the
latch then holds, and how deep calls may nest. -/

namespace Sys2Proof.Machine

/-- Settles O18: the two outcomes of an instruction (`exec_cases`), told apart by the cause that Table G1 gives it. -/
theorem faultsArePreciseAndLatched : Obligations.FaultsArePreciseAndLatched := by
  intro i s
  split
  next f hf => exact exec_of_faultCause_some hf
  next hf =>
    obtain ⟨t, ht, hcompletes⟩ := exec_of_faultCause_none hf
    exact ⟨t, ht, hcompletes.fault⟩

/-- After an instruction on a machine that was not halted, the latch's code is the cause that Table G1 gives it. -/
theorem exec_fault_code {i : Instr} {s t : State} (hh : s.halted = false) (h : exec i s = .next t) :
    t.fault.code = faultCause i s := by
  obtain ⟨f, hf, hx⟩ | ⟨hf, u, hx, hu⟩ := exec_cases i s <;> rw [hx] at h <;> cases h
  · exact hf.symm
  · rw [hu.fault, hf]
    exact s.not_halted_iff.1 hh

/-! ### Accesses above 0xFFF (R133) -/

/-- The instruction accesses memory, and one of its addresses lies above 0xFFF. -/
def accessesBeyond (i : Instr) (s : State) : Prop :=
  (∃ x y n, i = .drw x y n ∧ 0 < n ∧ s.i.toNat + n - 1 > 0xFFF) ∨
  (∃ x, i = .ldB x ∧ s.i.toNat + 2 > 0xFFF) ∨
  (∃ x, (i = .storeRegs x ∨ i = .loadRegs x) ∧ s.i.toNat + x.val > 0xFFF)

/-- Table G1 gives `MemoryOutOfRange` to the accesses above 0xFFF. -/
theorem faultCause_eq_memoryOutOfRange_iff (i : Instr) (s : State) :
    faultCause i s = some .memoryOutOfRange ↔ accessesBeyond i s := by
  cases i
  case drw | ldB =>
    simp [faultCause, accessesBeyond]
    omega
  all_goals simp [faultCause, accessesBeyond]

/-- Settles O19, stage by stage: a fetch raises the fault from 0xFFF on, a decode never, and an executed instruction
where Table G1 gives it (`exec_fault_code`). -/
theorem memoryOutOfRangeExactly : Obligations.MemoryOutOfRangeExactly := by
  rintro s t ⟨hh, hw⟩ ht
  change _ ↔ _ ∨ ∃ w i, s.fetchWord = some w ∧ decode w = some i ∧ accessesBeyond i s
  obtain ⟨hh', -⟩ | ⟨-, hw', -⟩ | ⟨-, -, hfetch, rfl⟩ | ⟨-, -, w, hfetch, hstage⟩ := step_cases ht
  · cases hh.symm.trans hh'
  · cases hw.symm.trans hw'
  · simp [State.fetchWord_eq_none.1 hfetch]
  · have hpc : ¬ 0xFFF ≤ s.pc.toNat := by
      have := (State.fetchWord_eq_some hfetch).1
      omega
    obtain ⟨hd, rfl⟩ | ⟨i, hd, hx⟩ := hstage
    · simp [hpc, hfetch, hd]
    · simp [hpc, hfetch, hd, exec_fault_code hh hx, faultCause_eq_memoryOutOfRange_iff]

/-! ### Sixteen nested calls (R132) -/

/-- Calls succeed one after another as long as the stack has an entry for each. -/
theorem callAll_of_fits {targets : List (BitVec 12)} {s : State} (hh : s.halted = false)
    (hfit : s.sp.val + targets.length ≤ 16) :
    ∃ t, callAll targets s = .next t ∧ t.sp.val = s.sp.val + targets.length ∧ t.halted = false := by
  induction targets generalizing s with
  | nil => exact ⟨s, rfl, rfl, hh⟩
  | cons nnn rest ih =>
    rw [List.length_cons] at hfit ⊢
    obtain ⟨u, hcall, hpush, -⟩ := callPushesReturnAddress nnn s
    obtain ⟨husp, -, -, -, -, hfault, -⟩ := hpush (by omega)
    obtain ⟨t, ht, htsp, hth⟩ := ih ((State.halted_congr hfault).trans hh) (by omega)
    exact ⟨t, by simp only [callAll, hcall, ht], by omega, hth⟩

/-- Table G1 gives `StackOverflow` to calls alone. -/
theorem eq_call_of_stackOverflow {i : Instr} {s : State} (h : faultCause i s = some .stackOverflow) :
    ∃ nnn, i = .call nnn := by
  cases i
  case call nnn => exact ⟨nnn, rfl⟩
  all_goals simp [faultCause] at h

/-- Table G1 gives `StackUnderflow` to the return alone. -/
theorem eq_ret_of_stackUnderflow {i : Instr} {s : State} (h : faultCause i s = some .stackUnderflow) : i = .ret := by
  cases i
  case ret => rfl
  all_goals simp [faultCause] at h

/-- Settles O20: each call takes one of the 16 entries (`callAll_of_fits`); a full stack faults a call, an empty one a
return, and Table G1 has no other cause of either fault. -/
theorem stackHoldsSixteenCalls : Obligations.StackHoldsSixteenCalls := by
  refine ⟨fun targets s hsp hh hlen => ?_, fun s hsp => ?_, fun i s t hh ht => ?_⟩
  · have hempty : s.sp.val = 0 := congrArg Fin.val hsp
    obtain ⟨t, ht, htsp, hth⟩ := callAll_of_fits (targets := targets) hh (by omega)
    refine ⟨t, ht, by omega, hth, fun hfull nnn => ?_⟩
    have hcause : faultCause (.call nnn) t = some .stackOverflow := if_pos (by omega)
    exact ⟨_, exec_of_faultCause_some hcause, rfl⟩
  · have hcause : faultCause .ret s = some .stackUnderflow := if_pos (congrArg Fin.val hsp)
    exact ⟨_, exec_of_faultCause_some hcause, rfl⟩
  · rw [exec_fault_code hh ht]
    exact ⟨eq_call_of_stackOverflow, eq_ret_of_stackUnderflow⟩

end Sys2Proof.Machine
end

-- ==== Ticks and key events ====
section
/-! What happens between steps (spec/60_exceptions.md R143..R148): ticks count the timers down, and key events set the
key line and may resolve a wait. -/

namespace Sys2Proof.Machine

/-! ### Ticks (R143, R144) -/

/-- `n` counts take `n` from a timer, down to 0. -/
theorem toNat_iterate_countDown (n : Nat) (b : Byte) : (countDown^[n] b).toNat = b.toNat - n := by
  induction n with
  | zero => rfl
  | succ n ih =>
    rw [Function.iterate_succ_apply', toNat_countDown, ih]
    omega

/-- Ticks on a machine that is not halted count each timer down on its own and do nothing else. -/
theorem iterate_tick {s : State} (hh : s.halted = false) (n : Nat) :
    tick^[n] s = { s with dt := countDown^[n] s.dt, st := countDown^[n] s.st } := by
  induction n with
  | zero => rfl
  | succ n ih =>
    simp only [Function.iterate_succ_apply', ih]
    exact tick_running hh

/-- Settles O22: `n` ticks are `n` counts of each timer (`iterate_tick`), a count leaves 0 at 0, and of the instructions
only `Fx15` and `Fx18` write a timer (`FollowsCycle`). -/
theorem ticksCountDownToZero : Obligations.TicksCountDownToZero := by
  refine ⟨fun n s hh => ?_, fun s => ?_, fun i s t ht => ?_⟩
  · rw [iterate_tick hh]
    exact ⟨toNat_iterate_countDown n s.dt, toNat_iterate_countDown n s.st, rfl⟩
  · cases hh : s.halted with
    | true =>
      rw [tick_halted hh]
      exact ⟨id, id⟩
    | false =>
      rw [tick_running hh]
      exact ⟨congrArg countDown, congrArg countDown⟩
  · obtain ⟨f, -, rfl⟩ | ⟨-, hcycle⟩ := exec_followsCycle_or_faults ht
    · exact ⟨absurd rfl, absurd rfl⟩
    · exact ⟨fun hne => (hcycle.dt.resolve_left hne).imp fun _ => And.left,
        fun hne => (hcycle.st.resolve_left hne).imp fun _ => And.left⟩

/-! ### Key events (R146, R147, R148) -/

/-- What an event does that resolves no wait: the key line is set, and nothing else changes. -/
theorem transact_setKey_plain {s : State} {k : Key} {p : Bool}
    (h : s.ws = .running ∨ p = false ∨ s.keyDown k = true ∨ s.halted = true) :
    ∃ t, transact (.setKey k p) s = .next (t, .done) ∧ t = { s with key := t.key } ∧
      t.keyDown k = p ∧ ∀ q, q ≠ k → t.keyDown q = s.keyDown q := by
  refine ⟨_, rfl, ?_, by rw [keyDown_setKey, if_pos rfl], fun q hq => by rw [keyDown_setKey, if_neg hq]⟩
  rw [setKey_plain h]

/-- Settles O23: the key-down resolves the wait (`setKey_resolves`), and the machine that then runs takes every event
as a key line alone. -/
theorem keyDownResolvesWait : Obligations.KeyDownResolvesWait := by
  intro s x k hws hh hup
  have hres := setKey_resolves hws hh hup
  have hline := fun q => keyDown_setKey s k q true
  have hreg := getV_resolveKey { s with key := s.key.set k.val true k.isLt } x k
  rw [hres] at hline
  refine ⟨_, congrArg (fun t => Host.Outcome.next (t, TransactionResult.done)) hres, rfl, rfl, rfl,
    (hreg x).trans (if_pos rfl), fun r hr => (hreg r).trans (if_neg hr),
    (hline k).trans (if_pos rfl), fun q hq => (hline q).trans (if_neg hq), rfl, fun q p => ?_⟩
  obtain ⟨u, hu, hframe, -⟩ := transact_setKey_plain (s := resolveKey x k _) (k := q) (p := p) (.inl rfl)
  exact ⟨u, hu, hframe⟩

/-- Settles O24: none of the three events resolves a wait (`transact_setKey_plain`). -/
theorem onlyKeyDownEndsWait : Obligations.OnlyKeyDownEndsWait := by
  rintro s k p (hrun | hrelease | hrepeat)
  · exact transact_setKey_plain (.inl (s.not_waiting_iff.1 hrun))
  · exact transact_setKey_plain (.inr (.inl hrelease))
  · exact transact_setKey_plain (.inr (.inr (.inl hrepeat)))

end Sys2Proof.Machine
end

-- ==== Construction and reset ====
section
/-! The machine after construction and after the `reset` transaction (spec/10_state.md R42 Table I1;
spec/70_reset_and_hazards.md R154..R157): the value of every field, and the invariant. -/

namespace Sys2Proof.Machine

/-! ### Construction (R42 Table I1, R154) -/

@[simp] theorem State.getV_construct (c : Config) (r : Reg) : (State.construct c).getV r = 0 :=
  Vector.getElem_replicate ..

@[simp] theorem State.keyDown_construct (c : Config) (k : Key) : (State.construct c).keyDown k = false :=
  Vector.getElem_replicate ..

/-- Every byte outside the font is 0 as long as nothing is written there (D6). -/
theorem Memory.background_outside_font {c : Config} {a : Nat}
    (h : a < c.fontBase.val ∨ c.fontBase.val + 80 ≤ a) : Memory.background c a = 0 := dif_neg (by omega)

/-- Settles O6, field by field: the arrays hold one value in every entry, and memory reads as its background. -/
theorem constructionValues : Obligations.ConstructionValues :=
  ⟨fun c => ⟨rfl, State.getV_construct c, rfl, rfl, rfl, fun _ h => Vector.getElem_replicate h, rfl, rfl,
    Framebuffer.cell_clear, State.keyDown_construct c, rfl, rfl, rfl, rfl,
    fun _ hj => Memory.background_font c hj, fun _ ha => Memory.background_outside_font ha⟩, rfl⟩

/-- The constructed machine has a clear latch, an empty memory list and no wait. -/
theorem machineInv_construct (c : Config) : MachineInv (State.construct c) :=
  machineInv_of_clear rfl (Memory.wf_nil c) nofun

/-- Settles O57: the reset state is the constructed machine at the default parameters. -/
theorem invariantAfterConstruction : Obligations.InvariantAfterConstruction :=
  ⟨machineInv_construct, machineInv_construct Config.default⟩

/-! ### The `reset` transaction (R157) -/

/-- Memory after `reset`: the constructed machine's below 0x200, the old one from there up (D23). -/
theorem State.byteAt_resetMachine (s : State) (a : Nat) :
    (resetMachine s).byteAt a = if a < 0x200 then (State.construct s.cfg).byteAt a else s.byteAt a :=
  Memory.read_restoreReserved s.cfg s.mem a

/-- Settles O7: the fields outside memory are those of the constructed machine by definition, and memory is split at
0x200 (`State.byteAt_resetMachine`). -/
theorem resetTransactionValues : Obligations.ResetTransactionValues := fun s =>
  ⟨rfl, rfl, rfl, rfl, rfl, rfl, rfl, rfl, rfl, rfl, rfl, rfl, rfl,
    fun a ha => (s.byteAt_resetMachine a).trans (if_pos ha),
    fun a ha => (s.byteAt_resetMachine a).trans (if_neg (Nat.not_lt.2 ha))⟩

end Sys2Proof.Machine
end

-- ==== Loading ====
section
/-! The `load` transaction (spec/70_reset_and_hazards.md R158): the bytes at 0x200 if they fit, nothing at all if they do
not. -/

namespace Sys2Proof.Machine

theorem transact_load_of_too_large {bs : List Byte} {s : State} (h : 0xE00 < bs.length) :
    transact (.load bs) s = .next (s, .programTooLarge) := by
  simp only [transact, load_of_too_large h]

/-- Settles O8: a program that fits is a store of its bytes at 0x200 (`transact_load_of_fits`), which writes memory
alone. -/
theorem loadWritesProgramAt200 : Obligations.LoadWritesProgramAt200 := fun bs s =>
  ⟨fun hfit => ⟨_, transact_load_of_fits hfit, State.storeBytes_pc .., Keeps.refl.storeBytes (by decide) 0x200 bs,
    fun _ hk => s.byteAt_storeBytes_getElem 0x200 bs hk, fun _ ha => s.byteAt_storeBytes_outside 0x200 bs ha⟩,
    transact_load_of_too_large⟩

end Sys2Proof.Machine
end

-- ==== Steps that execute nothing ====
section
/-! The stages of a step before execution (spec/40_engine_cycle.md R80..R83): the halted and the waiting machine, the
fetch beyond memory and the illegal word; and what the other transactions do to a halted machine (spec/60_exceptions.md
Table H1). -/

namespace Sys2Proof.Machine

/-! ### The halted and the waiting machine (R80, R81) -/

theorem step_of_halted {s : State} (h : s.halted = true) : step s = .next s := if_pos h

/-- Where the bare step changes nothing, whatever its random byte, `step(b)` changes nothing either. -/
theorem transact_step_of_unchanged {s : State} {b : Byte}
    (h : step { s with rand := b } = .next { s with rand := b }) :
    transact (.step b) s = .next (s, stepResult s s) := by
  simp only [transact, stepWith, h]

theorem transact_step_of_halted {s : State} (h : s.halted = true) (b : Byte) :
    transact (.step b) s = .next (s, .halted) := by
  have hresult : stepResult s s = .halted := (stepResult_iff s s).1.2 h
  exact hresult ▸ transact_step_of_unchanged (step_of_halted h)

theorem transact_step_of_waiting {s : State} (hh : s.halted = false) (hw : s.waiting = true) (b : Byte) :
    transact (.step b) s = .next (s, .waiting) := by
  have hresult : stepResult s s = .waiting := (stepResult_iff s s).2.1.2 ⟨hh, hw⟩
  exact hresult ▸ transact_step_of_unchanged (step_of_waiting hw)

/-- Settles O10: the first two stages of the step answer the state they are given, and the result is read off it. -/
theorem haltedAndWaitingStepsChangeNothing : Obligations.HaltedAndWaitingStepsChangeNothing := fun _ b =>
  ⟨fun hh => ⟨step_of_halted hh, transact_step_of_halted hh b⟩,
    fun hh hw => ⟨step_of_waiting hw, transact_step_of_waiting hh hw b⟩⟩

/-! ### The faults of fetch and decode (R82, R83, R85) -/

/-- A running machine latches `MemoryOutOfRange`, with no word, on a fetch beyond memory. -/
theorem step_eq_fetchFault {s : State} (hrun : s.running) (hpc : 0xFFF ≤ s.pc.toNat) :
    step s = .next (s.takeFault .memoryOutOfRange none) := by
  obtain ⟨hh, hw⟩ := hrun
  simp [step, hh, hw, State.fetchWord_eq_none.2 hpc]

/-- Settles O11: fault entry writes the latch alone, whichever of the two stages raises the fault. -/
theorem fetchAndDecodeFaultsWriteOnlyLatch : Obligations.FetchAndDecodeFaultsWriteOnlyLatch := fun _ hrun =>
  ⟨step_eq_fetchFault hrun, fun _ => step_eq_decodeError hrun⟩

/-! ### Table H1 -/

/-- A load writes memory alone, whether the program fits or not. -/
theorem transact_load_frame (bs : List Byte) (s : State) :
    ∃ t r, transact (.load bs) s = .next (t, r) ∧ t = { s with mem := t.mem } := by
  obtain hfit | hlarge := le_or_gt bs.length 0xE00
  · exact ⟨_, _, transact_load_of_fits hfit, s.storeBytes_eq 0x200 bs⟩
  · exact ⟨s, _, transact_load_of_too_large hlarge, rfl⟩

/-- Settles O21, row by row: a step and a tick change nothing, a key event resolves no wait (`transact_setKey_plain`), a
load writes memory alone (`transact_load_frame`), and only `reset` clears the latch. -/
theorem haltedMachineFollowsTableH1 : Obligations.HaltedMachineFollowsTableH1 := by
  intro s hh
  have htick : transact .tick s = .next (s, .done) := by rw [transact, tick_halted hh]
  exact ⟨transact_step_of_halted hh, htick, fun _ _ => transact_setKey_plain (.inr (.inr (.inr hh))),
    fun bs => transact_load_frame bs s, ⟨_, rfl, rfl⟩⟩

end Sys2Proof.Machine
end

-- ==== Words written out ====
section
/-! The decoder run on words written out by hand (spec/30_encoding.md R69, R71, R74). -/

namespace Sys2Proof

/-- Settles O1 by running the decoder on the twelve words. -/
theorem wordsWrittenOutDecode : Obligations.WordsWrittenOutDecode := by
  unfold Obligations.WordsWrittenOutDecode
  decide

end Sys2Proof
end
